-- ==== Sys2Proof/Word.lean ====
section
/-! DEFINITION. The 64-bit cell and the operand vocabulary that instructions are written in (`00_scope.md` R6, R8; `30_encoding.md` R84). -/

namespace Sys2Proof

/-- A cell: a signed 64-bit integer in two's complement. Its value is `BitVec.toInt` (R6, R8). -/
abbrev Word := BitVec 64

/-- The three addressing modes (R84). -/
inductive Mode where
  /-- digit 0: the parameter cell is an address -/
  | position
  /-- digit 1: the parameter cell is the value itself -/
  | immediate
  /-- digit 2: the parameter cell is a displacement from the relative base -/
  | relative
deriving DecidableEq, Repr

/-- One parameter of an instruction: its mode and its whole cell, used as it stands (R87). -/
structure Operand where
  mode : Mode
  cell : Word
deriving DecidableEq, Repr

end Sys2Proof
end

