-- ==== Sys2Proof/Config.lean ====
section
/-! DEFINITION. What the implementation fixes (`00_scope.md` R6, R7) and the one free value of the model.
MEM_CAPACITY and QUEUE_CAPACITY of R7 keep their default, unbounded, and so have no constant here (log entry 9). -/

namespace Sys2Proof

/-- The largest `Int64`, `2^63 - 1`: the largest cell address and the largest `pc` (R6, R8). -/
abbrev Config.int64Max : Nat := 9223372036854775807

/-- The smallest `Int64`, `-2^63` (R6). -/
abbrev Config.int64Min : Int := -9223372036854775808

/-- FREE VALUE (log entry 20): the text that the `n`-th `dump` shows. The spec gives the format no contract
(`45_host_commands.md` R228), so nothing is known of it. -/
opaque Config.dumpText : Nat → String

end Sys2Proof
end

