-- ==== Sys2Proof/Machine/State.lean ====
section
/-! DEFINITION. The state of one VM instance, exactly the six components of `10_state.md` R21, its reset value (R36),
and the reasons a step or a command can stop. -/

namespace Sys2Proof.Machine

/-- The status register (`10_state.md` R26). -/
inductive Status where
  /-- the last step completed an instruction, or nothing has run yet -/
  | running
  /-- a halt instruction was executed; sticky -/
  | halted
  /-- `pc` would have left `0 .. 2^63-1`; sticky -/
  | invalidPC
  /-- an instruction addressed a cell outside `0 .. 2^63-1`; sticky -/
  | memoryError
  /-- the word at `pc` is not a legal instruction word; sticky -/
  | decodeError
  /-- an input instruction found the input queue empty and has not executed -/
  | needsInput
deriving DecidableEq, Repr

/-- The four conditions a step can raise (`00_scope.md` R12; `60_exceptions.md` R260). -/
inductive Condition where
  | decodeError | invalidPC | memoryError | needsInput
deriving DecidableEq, Repr

/-- No step of this machine ends in a model fault: every condition the spec names is raised into `status` and the
machine is still there (`60_exceptions.md` R266, R271), so the type has no constructor (log entry 12). -/
inductive Fault where
deriving DecidableEq, Repr

/-- Why a step or a host command has no meaning. -/
inductive Refusal where
  /-- raised by `exec` for an instruction without a meaning; no arm of this model raises it; safe -/
  | notModelled (mnemonic : String)
  /-- raised by the `load` command on an instance that is not fresh (`45_host_commands.md` R211, U8); safe -/
  | loadNotFresh
  /-- raised by the `load` command for a tape longer than the address space, which the spec gives no cells (log entry 17); safe -/
  | tapeTooLong
  /-- raised by `patch_instruction_at` on a cell that is no jump word (`45_host_commands.md` R227, U10); safe -/
  | patchNotJump
  /-- raised by every command on a handle that is not live (`45_host_commands.md` R229, U11); safe -/
  | noSuchInstance
  /-- raised by the `run` command when it has not returned after the steps it was given (`40_engine.md` R124, U20); safe -/
  | runUnfinished
deriving DecidableEq, Repr

/-- The memory `M` as the cells that do not read 0, by address (`10_state.md` R30). An address is a whole cell's
(`20_memory.md` R50, R58), so an entry is a 64-bit word and not a byte (log entry 1). -/
abbrev Memory := List (Nat × Word)

/-- The canonical form: addresses strictly rising, each at most `2^63-1`, and no cell listed that reads 0 anyway. -/
def Memory.wf : Memory → Bool
  | [] => true
  | (a, v) :: m => decide (a ≤ Config.int64Max) && decide (v ≠ 0) && m.all (fun c => decide (a < c.1)) && Memory.wf m

/-- The state of one VM instance (`10_state.md` R21). -/
structure State where
  /-- `M` (R30) -/
  memory : Memory
  /-- `pc` (R22) -/
  pc : Nat
  /-- `rb` (R25) -/
  rb : Word
  /-- `IQ`, front first (R31) -/
  inputQueue : List Word
  /-- `OQ`, front first (R32) -/
  outputQueue : List Word
  /-- `status` (R26) -/
  status : Status
deriving DecidableEq, Repr

/-- The state after `create` alone: R36 with an empty tape (`45_host_commands.md` R210). -/
def State.reset : State :=
  { memory := [], pc := 0, rb := 0, inputQueue := [], outputQueue := [], status := .running }

end Sys2Proof.Machine
end

