-- ==== Sys2Proof/Machine/Ops.lean ====
section
/-! DEFINITION. The named operations on memory, registers, queues and status, raising a condition, and the commit that
ends a step (`00_scope.md` R8 to R13; `20_memory.md`; `40_engine.md` R119, R120; `60_exceptions.md` R266). -/

namespace Sys2Proof.Machine

/-! ### Numbers -/

/-- `wrap64(z)`: the `Int64` congruent to `z` modulo `2^64` (`00_scope.md` R8). -/
def wrap64 (z : Int) : Word := BitVec.ofInt 64 z

/-- `0 <= a <= INT64_MAX`: the legal cell addresses and the legal values of `pc` (R8; `10_state.md` R22). -/
abbrev LegalAddr (a : Int) : Prop := 0 ≤ a ∧ a ≤ (Config.int64Max : Int)

/-! ### Memory -/

/-- `MemRead(a, 1)` at a legal address: the value last written, 0 where nothing was (`20_memory.md` R51). -/
def Memory.read : Memory → Nat → Word
  | [], _ => 0
  | (k, v) :: m, a => if k = a then v else Memory.read m a

/-- A cell put in its place by address, into a memory that does not list it. -/
def Memory.insert (a : Nat) (v : Word) : Memory → Memory
  | [] => [(a, v)]
  | (k, w) :: m => if a < k then (a, v) :: (k, w) :: m else (k, w) :: Memory.insert a v m

/-- The memory with one cell reading 0 and all others as before. -/
def Memory.erase (m : Memory) (a : Nat) : Memory := m.filter fun c => decide (c.1 ≠ a)

/-- `MemWrite(a, 1, v)` at a legal address: this cell becomes `v`, all others stay (`20_memory.md` R53). A cell that
becomes 0 leaves the list. -/
def Memory.write (m : Memory) (a : Nat) (v : Word) : Memory :=
  if v = 0 then m.erase a else (m.erase a).insert a v

/-- Successive values into successive cells from address `a` on (`45_host_commands.md` R211). -/
def Memory.writeFrom (m : Memory) (a : Nat) : List Word → Memory
  | [] => m
  | v :: vs => Memory.writeFrom (m.write a v) (a + 1) vs

/-! ### Status -/

/-- The numeric code of a status (`10_state.md` R26; the spec's decision D11, log entry 27). -/
def Status.code : Status → Nat
  | .running => 0
  | .halted => 1
  | .invalidPC => 2
  | .memoryError => 3
  | .decodeError => 4
  | .needsInput => 5

/-- The terminal statuses, which are the sticky ones (`00_scope.md` R17; `10_state.md` R28). -/
def Status.terminal : Status → Bool
  | .running => false
  | .halted => true
  | .invalidPC => true
  | .memoryError => true
  | .decodeError => true
  | .needsInput => false

/-- The status a raised condition leaves (`00_scope.md` R12). -/
def Condition.status : Condition → Status
  | .decodeError => .decodeError
  | .invalidPC => .invalidPC
  | .memoryError => .memoryError
  | .needsInput => .needsInput

/-! ### Updates of the state -/

/-- Taking an exception, the one operation for all four conditions: `status` takes the condition and nothing else
changes (`60_exceptions.md` R266, R271; `00_scope.md` R12). There is no return from it: the faults are sticky and
`NeedsInput` is left by the retry of the step (R272). -/
def State.raise (s : State) (c : Condition) : State := { s with status := c.status }

/-- One cell written. -/
def State.store (s : State) (a : Nat) (v : Word) : State := { s with memory := s.memory.write a v }

/-- The input queue replaced by what is left of it. -/
def State.setInputQueue (s : State) (q : List Word) : State := { s with inputQueue := q }

/-- `push_back(OQ, v)` (`00_scope.md` R13). -/
def State.pushOutput (s : State) (v : Word) : State := { s with outputQueue := s.outputQueue ++ [v] }

/-- `rb <- v`. -/
def State.setRb (s : State) (v : Word) : State := { s with rb := v }

/-- `pc <- npc; status <- Running`: what every completed instruction but halt ends with (`40_engine.md` R120). -/
def State.advance (s : State) (npc : Nat) : State := { s with pc := npc, status := .running }

/-- `status <- Halted`, all else unchanged (`43_control.md` R182). -/
def State.halt (s : State) : State := { s with status := .halted }

/-! ### Ending a step -/

/-- Go on with the value, or raise the condition in the state before the instruction (`40_engine.md` R114). -/
def orRaise {α : Type} (s : State) (r : Except Condition α) (k : α → Host.Outcome State Fault Refusal) :
    Host.Outcome State Fault Refusal :=
  match r with
  | .ok v => k v
  | .error c => .next (s.raise c)

/-- Lines 9 and 10 of `Step()`: where the new `pc` is outside `0 .. INT64_MAX`, `InvalidPC` is raised in the state `s`
before the instruction; otherwise the effect `t` is committed with the new `pc` (R119, R120). -/
def commit (s : State) (npc : Int) (t : State) : Host.Outcome State Fault Refusal :=
  if LegalAddr npc then .next (t.advance npc.toNat) else .next (s.raise .invalidPC)

end Sys2Proof.Machine
end

