-- ==== Sys2Proof/Machine/Flags.lean ====
section
/-! DEFINITION. The machine has no flags (`10_state.md` R29). Here stand the truth values that take their place: what
the comparisons write to memory and what the conditional jumps test. -/

namespace Sys2Proof.Machine

/-- The 1 or 0 that a comparison writes (`41_arithmetic.md` R142, R143). -/
def truthWord (b : Bool) : Word := if b then 1 else 0

/-- Less-than of two cells as signed integers (R142). -/
def lessThanBit (a b : Word) : Word := truthWord (decide (a.toInt < b.toInt))

/-- Equality of two cells (R143). -/
def equalsBit (a b : Word) : Word := truthWord (decide (a = b))

/-- The zero test of the conditional jumps (`41_arithmetic.md` R145; `43_control.md` R180, R181). -/
def isZero (a : Word) : Bool := decide (a = 0)

end Sys2Proof.Machine
end

