-- ==== Sys2Proof/Machine/Operands.lean ====
section
/-! DEFINITION. Operand resolution: the value of a read parameter and the address of a write parameter in each of the
three modes (`40_engine.md` R115, R116). -/

namespace Sys2Proof.Machine

/-- A computed address as a cell address, or `MemoryError` where it is outside `0 .. INT64_MAX` (R115, R116). -/
def toAddr (a : Int) : Except Condition Nat :=
  if LegalAddr a then .ok a.toNat else .error .memoryError

/-- The address of a parameter: the cell in position mode, `rb` plus the cell in relative mode, the sum over the
integers without wraparound (R115, R116; the spec's decision D5, log entry 3). An immediate parameter has none: as a
write parameter it is `DecodeError` (`30_encoding.md` R84, R92), which the decoder raises before this is reached. -/
def adr (s : State) (o : Operand) : Except Condition Nat :=
  match o.mode with
  | .position => toAddr o.cell.toInt
  | .immediate => .error .decodeError
  | .relative => toAddr (s.rb.toInt + o.cell.toInt)

/-- The cell a position or relative read parameter names, read (R115). -/
def readAt (s : State) (r : Except Condition Nat) : Except Condition Word :=
  match r with
  | .ok a => .ok (s.memory.read a)
  | .error c => .error c

/-- `val(i)`: the value of a read parameter (R115). -/
def val (s : State) (o : Operand) : Except Condition Word :=
  match o.mode with
  | .position => readAt s (adr s o)
  | .immediate => .ok o.cell
  | .relative => readAt s (adr s o)

end Sys2Proof.Machine
end

