-- ==== Sys2Proof/Machine/Arithmetic.lean ====
section
/-! DEFINITION. The integer ALU family: add, mul, less-than, equals (`41_arithmetic.md`). -/

namespace Sys2Proof.Machine

/-- The step of every three-parameter instruction: both sources and the destination are resolved before anything is
written, then `f a b` goes to the destination and `pc` moves by 4 (`40_engine.md` R114, R117). The destination is
resolved first so that an immediate one is `DecodeError` whatever the sources are (`60_exceptions.md` R270); the order
is not observable otherwise. -/
def aluStep (f : Word → Word → Word) (a b dst : Operand) (s : State) : Host.Outcome State Fault Refusal :=
  orRaise s (adr s dst) fun d =>
  orRaise s (val s a) fun x =>
  orRaise s (val s b) fun y =>
  commit s ((s.pc : Int) + 4) (s.store d (f x y))

/-- The exact sum, wrapped (R140, R144). -/
def addWords (x y : Word) : Word := wrap64 (x.toInt + y.toInt)

/-- The exact product, wrapped (R141, R144). -/
def mulWords (x y : Word) : Word := wrap64 (x.toInt * y.toInt)

/-- add (R140). -/
def execAdd (a b dst : Operand) (s : State) : Host.Outcome State Fault Refusal := aluStep addWords a b dst s

/-- mul (R141). -/
def execMul (a b dst : Operand) (s : State) : Host.Outcome State Fault Refusal := aluStep mulWords a b dst s

/-- less-than (R142). -/
def execLessThan (a b dst : Operand) (s : State) : Host.Outcome State Fault Refusal := aluStep lessThanBit a b dst s

/-- equals (R143). -/
def execEquals (a b dst : Operand) (s : State) : Host.Outcome State Fault Refusal := aluStep equalsBit a b dst s

end Sys2Proof.Machine
end

