-- ==== Sys2Proof/Machine/Control.lean ====
section
/-! DEFINITION. jump-if-true, jump-if-false, halt (`43_control.md`). -/

namespace Sys2Proof.Machine

/-- The step of both jumps: condition and target are resolved, taken or not; the target is the value of the second
operand, an absolute address; not taken goes on at `pc + 3` (R180, R181). `taken` says of the condition's zero test
whether the jump is taken. -/
def jumpStep (taken : Bool → Bool) (a b : Operand) (s : State) : Host.Outcome State Fault Refusal :=
  orRaise s (val s a) fun x =>
  orRaise s (val s b) fun y =>
  commit s (if taken (isZero x) then y.toInt else (s.pc : Int) + 3) s

/-- jump-if-true (R180). -/
def execJumpIfTrue (a b : Operand) (s : State) : Host.Outcome State Fault Refusal := jumpStep (fun zero => !zero) a b s

/-- jump-if-false (R181). -/
def execJumpIfFalse (a b : Operand) (s : State) : Host.Outcome State Fault Refusal := jumpStep (fun zero => zero) a b s

/-- halt (R182). -/
def execHalt (s : State) : Host.Outcome State Fault Refusal := .next s.halt

end Sys2Proof.Machine
end

