-- ==== Sys2Proof/Syntax.lean ====
section
/-! DEFINITION. The ten instructions with their operands, one constructor per row of spec/opcode_table.json (`30_encoding.md` R85, R86). -/

namespace Sys2Proof

/-- An instruction with its parameters, in the order of the parameter cells (R85). Which parameters are read and
which one is written is said by `Opcode.roles`; that a written one is not immediate is `Instr.wellFormed`. -/
inductive Instr where
  /-- opcode 1 -/
  | add (a b dst : Operand)
  /-- opcode 2 -/
  | mul (a b dst : Operand)
  /-- opcode 3 -/
  | input (dst : Operand)
  /-- opcode 4 -/
  | output (a : Operand)
  /-- opcode 5 -/
  | jumpIfTrue (a b : Operand)
  /-- opcode 6 -/
  | jumpIfFalse (a b : Operand)
  /-- opcode 7 -/
  | lessThan (a b dst : Operand)
  /-- opcode 8 -/
  | equals (a b dst : Operand)
  /-- opcode 9 -/
  | adjustRelativeBase (a : Operand)
  /-- opcode 99 -/
  | halt
deriving DecidableEq, Repr

/-- The parameters of an instruction, in the order of its parameter cells (R80). -/
def Instr.operands : Instr → List Operand
  | .add a b dst => [a, b, dst]
  | .mul a b dst => [a, b, dst]
  | .input dst => [dst]
  | .output a => [a]
  | .jumpIfTrue a b => [a, b]
  | .jumpIfFalse a b => [a, b]
  | .lessThan a b dst => [a, b, dst]
  | .equals a b dst => [a, b, dst]
  | .adjustRelativeBase a => [a]
  | .halt => []

/-- The arity `n`: how many parameter cells follow the instruction word (R80, R85). -/
def Instr.arity (i : Instr) : Nat := i.operands.length

/-- The write parameter (`dst`), of the instructions that have one (R85). -/
def Instr.dst? : Instr → Option Operand
  | .add _ _ dst => some dst
  | .mul _ _ dst => some dst
  | .input dst => some dst
  | .output _ => none
  | .jumpIfTrue _ _ => none
  | .jumpIfFalse _ _ => none
  | .lessThan _ _ dst => some dst
  | .equals _ _ dst => some dst
  | .adjustRelativeBase _ => none
  | .halt => none

end Sys2Proof
end

