-- ==== Sys2Proof/WellFormed.lean ====
section
/-! DEFINITION. Which instructions an instruction word can stand for: the write parameter is not immediate (`30_encoding.md` R84, R92). -/

namespace Sys2Proof

/-- A write parameter is in position or relative mode (R92: "write target must be position or relative"). -/
def Operand.writable (o : Operand) : Bool :=
  match o.mode with
  | .position => true
  | .immediate => false
  | .relative => true

/-- The only check on an instruction: its write parameter, if it has one, is writable (R92). -/
def Instr.wellFormed (i : Instr) : Bool :=
  match i.dst? with
  | some dst => dst.writable
  | none => true

end Sys2Proof
end

