-- ==== Sys2Proof/Machine/InputOutput.lean ====
section
/-! DEFINITION. input and output (`42_io.md`). -/

namespace Sys2Proof.Machine

/-- input (R160): with an empty queue `NeedsInput` is raised before the destination is looked at (`40_engine.md` R114
line 6); otherwise the front value goes to the destination. An immediate destination, which the decoder never gives,
is `DecodeError` before all else (`60_exceptions.md` R270). -/
def execInput (dst : Operand) (s : State) : Host.Outcome State Fault Refusal :=
  if dst.writable then
    match s.inputQueue with
    | [] => .next (s.raise .needsInput)
    | v :: rest =>
      orRaise s (adr s dst) fun d =>
      commit s ((s.pc : Int) + 2) ((s.setInputQueue rest).store d v)
  else .next (s.raise .decodeError)

/-- output (R161). -/
def execOutput (a : Operand) (s : State) : Host.Outcome State Fault Refusal :=
  orRaise s (val s a) fun x =>
  commit s ((s.pc : Int) + 2) (s.pushOutput x)

end Sys2Proof.Machine
end

