-- ==== Sys2Proof/Machine/RelativeBase.lean ====
section
/-! DEFINITION. adjust-relative-base (`44_relative_base.md`). -/

namespace Sys2Proof.Machine

/-- adjust-relative-base (R200): the operand is read at the old `rb`, and the sum wraps. -/
def execAdjustRelativeBase (a : Operand) (s : State) : Host.Outcome State Fault Refusal :=
  orRaise s (val s a) fun x =>
  commit s ((s.pc : Int) + 2) (s.setRb (wrap64 (s.rb.toInt + x.toInt)))

end Sys2Proof.Machine
end

