-- ==== Sys2Proof/Machine/Dispatch.lean ====
section
/-! DEFINITION. One arm per instruction, each a call of its meaning. -/

namespace Sys2Proof.Machine

def exec (i : Instr) (s : State) : Host.Outcome State Fault Refusal :=
  match i with
  | .add a b dst => Sys2Proof.Machine.execAdd a b dst s
  | .mul a b dst => Sys2Proof.Machine.execMul a b dst s
  | .input dst => Sys2Proof.Machine.execInput dst s
  | .output a => Sys2Proof.Machine.execOutput a s
  | .jumpIfTrue a b => Sys2Proof.Machine.execJumpIfTrue a b s
  | .jumpIfFalse a b => Sys2Proof.Machine.execJumpIfFalse a b s
  | .lessThan a b dst => Sys2Proof.Machine.execLessThan a b dst s
  | .equals a b dst => Sys2Proof.Machine.execEquals a b dst s
  | .adjustRelativeBase a => Sys2Proof.Machine.execAdjustRelativeBase a s
  | .halt => Sys2Proof.Machine.execHalt s

end Sys2Proof.Machine
end

