-- ==== Sys2Proof/Decode.lean ====
section
/-! DEFINITION. The decoder, a function of the instruction word alone (`30_encoding.md` R80 to R96), and after it the
encoder written from the same table (R85, R97). -/

namespace Sys2Proof

/-- The ten operations (R86). -/
inductive Opcode where
  | add | mul | input | output | jumpIfTrue | jumpIfFalse | lessThan | equals | adjustRelativeBase | halt
deriving DecidableEq, Repr

/-- What an instruction does with a parameter: uses its value, or writes to its address (R85). -/
inductive Role where
  | read | write
deriving DecidableEq, Repr

/-- Why the decoder refuses (R261). All but `truncated` are `DecodeError`; nothing of this is recorded (R263). -/
inductive Reject where
  /-- the word is negative (R83) -/
  | negativeWord
  /-- `W mod 100` selects no instruction (R90) -/
  | unsupportedOpcode (opc : Nat)
  /-- the mode digit of parameter `i` is 3 to 9 (R91) -/
  | illegalMode (i digit : Nat)
  /-- parameter `i` is written and its mode is immediate (R92) -/
  | immediateWrite (i : Nat)
  /-- the list of cells ends before the instruction does (only where whole lists of cells are decoded) -/
  | truncated
deriving DecidableEq, Repr

/-! ### The table of R85 -/

/-- All ten, in the table's order. -/
def Opcode.all : List Opcode :=
  [.add, .mul, .input, .output, .jumpIfTrue, .jumpIfFalse, .lessThan, .equals, .adjustRelativeBase, .halt]

/-- The opcode field of each operation (R85). -/
def Opcode.number : Opcode → Nat
  | .add => 1
  | .mul => 2
  | .input => 3
  | .output => 4
  | .jumpIfTrue => 5
  | .jumpIfFalse => 6
  | .lessThan => 7
  | .equals => 8
  | .adjustRelativeBase => 9
  | .halt => 99

/-- The parameter roles of each operation, `p_1` first (R85). -/
def Opcode.roles : Opcode → List Role
  | .add => [.read, .read, .write]
  | .mul => [.read, .read, .write]
  | .input => [.write]
  | .output => [.read]
  | .jumpIfTrue => [.read, .read]
  | .jumpIfFalse => [.read, .read]
  | .lessThan => [.read, .read, .write]
  | .equals => [.read, .read, .write]
  | .adjustRelativeBase => [.read]
  | .halt => []

/-- The arity `n` (R85). The length of the instruction is `1 + n` cells, by the opcode alone (R96). -/
def Opcode.arity (op : Opcode) : Nat := op.roles.length

/-- The operation an opcode field selects, if any (R86, R90). -/
def Opcode.ofNumber? (n : Nat) : Option Opcode := Opcode.all.find? fun op => op.number == n

/-- The digit of each mode (R84). -/
def Mode.digit : Mode → Nat
  | .position => 0
  | .immediate => 1
  | .relative => 2

/-- The mode a digit names; 3 to 9 name none (R84, R91). -/
def Mode.ofDigit? : Nat → Option Mode
  | 0 => some .position
  | 1 => some .immediate
  | 2 => some .relative
  | _ => none

/-! ### The decoder -/

/-- `dig_k(W)`: the decimal digit of weight `10^k` (R9). -/
def decDigit (k w : Nat) : Nat := w / 10 ^ k % 10

/-- The opcode field of a non-negative word (R82). -/
def opcodeField (w : Nat) : Nat := w % 100

/-- The mode digit of parameter `i` = 1, 2, 3 of a non-negative word (R81, R82). -/
def modeField (i w : Nat) : Nat := decDigit (i + 1) w

/-- The checks R88 makes of parameter `i`: a legal digit (R91), not immediate where it is written (R92). The digit of
a parameter that the operation does not have is not examined (R93) and gives position mode here. -/
def paramMode (op : Opcode) (i w : Nat) : Except Reject Mode :=
  match op.roles[i - 1]? with
  | none => .ok .position
  | some role =>
    match Mode.ofDigit? (modeField i w) with
    | none => .error (.illegalMode i (modeField i w))
    | some m => if role = .write ∧ m = .immediate then .error (.immediateWrite i) else .ok m

/-- What decoding one word gives: the operation and the modes of its parameters (R88). The modes of parameters the
operation does not have are position. -/
structure Header where
  op : Opcode
  m1 : Mode
  m2 : Mode
  m3 : Mode
deriving DecidableEq, Repr

/-- `Decode(W)` of R88: a pure function of the one cell `W`. -/
def decodeWord (w : Word) : Except Reject Header :=
  if w.toInt < 0 then .error .negativeWord
  else
    match Opcode.ofNumber? (opcodeField w.toNat) with
    | none => .error (.unsupportedOpcode (opcodeField w.toNat))
    | some op =>
      match paramMode op 1 w.toNat with
      | .error e => .error e
      | .ok m1 =>
        match paramMode op 2 w.toNat with
        | .error e => .error e
        | .ok m2 =>
          match paramMode op 3 w.toNat with
          | .error e => .error e
          | .ok m3 => .ok ⟨op, m1, m2, m3⟩

/-- The word selects an operation and all its ignored digits are zero: its digits of weight `10^(n+2)` and above (R93). -/
def canonicalWord (w : Nat) : Bool :=
  match Opcode.ofNumber? (opcodeField w) with
  | none => false
  | some op => decide (w < 10 ^ (op.arity + 2))

/-- The instruction made of a decoded word and the cells after it. A cell beyond the operation's arity is not used. -/
def Header.instr (h : Header) (p1 p2 p3 : Word) : Instr :=
  match h.op with
  | .add => .add ⟨h.m1, p1⟩ ⟨h.m2, p2⟩ ⟨h.m3, p3⟩
  | .mul => .mul ⟨h.m1, p1⟩ ⟨h.m2, p2⟩ ⟨h.m3, p3⟩
  | .input => .input ⟨h.m1, p1⟩
  | .output => .output ⟨h.m1, p1⟩
  | .jumpIfTrue => .jumpIfTrue ⟨h.m1, p1⟩ ⟨h.m2, p2⟩
  | .jumpIfFalse => .jumpIfFalse ⟨h.m1, p1⟩ ⟨h.m2, p2⟩
  | .lessThan => .lessThan ⟨h.m1, p1⟩ ⟨h.m2, p2⟩ ⟨h.m3, p3⟩
  | .equals => .equals ⟨h.m1, p1⟩ ⟨h.m2, p2⟩ ⟨h.m3, p3⟩
  | .adjustRelativeBase => .adjustRelativeBase ⟨h.m1, p1⟩
  | .halt => .halt

/-- The instruction at the front of a list of cells, with the rest of the list (R80). -/
def decode : List Word → Except Reject (Instr × List Word)
  | [] => .error .truncated
  | w :: cells =>
    match decodeWord w with
    | .error e => .error e
    | .ok h =>
      if cells.length < h.op.arity then .error .truncated
      else .ok (h.instr (cells.getD 0 0) (cells.getD 1 0) (cells.getD 2 0), cells.drop h.op.arity)

/-! ### The encoder -/

/-- The operation of an instruction. -/
def Instr.opcode : Instr → Opcode
  | .add _ _ _ => .add
  | .mul _ _ _ => .mul
  | .input _ => .input
  | .output _ => .output
  | .jumpIfTrue _ _ => .jumpIfTrue
  | .jumpIfFalse _ _ => .jumpIfFalse
  | .lessThan _ _ _ => .lessThan
  | .equals _ _ _ => .equals
  | .adjustRelativeBase _ => .adjustRelativeBase
  | .halt => .halt

/-- The mode digits of a list of operands, the first at weight `weight`: `100*m_1 + 1000*m_2 + 10000*m_3` (R81, R97). -/
def modeDigits : Nat → List Operand → Nat
  | _, [] => 0
  | weight, o :: os => weight * o.mode.digit + modeDigits (10 * weight) os

/-- The canonical instruction word, `opc + 100*m_1 + 1000*m_2 + 10000*m_3`, 0 for an absent operand (R97). -/
def Instr.word (i : Instr) : Nat := i.opcode.number + modeDigits 100 i.operands

/-- The `1 + n` cells of an instruction (R80, R97). -/
def encode (i : Instr) : List Word := BitVec.ofNat 64 i.word :: i.operands.map Operand.cell

/-! ### Instructions given as one number -/

/-- The first four cells of an instruction whose bits are `w`: the first cell is bits 63..0, the next bits 127..64,
and so on; bits above `nbits` are 0. Each cell is stored whole, so there is no byte order (`20_memory.md` R58; log entry 25). -/
def tableCells (nbits w : Nat) : List Word :=
  let v := w % 2 ^ nbits
  [BitVec.ofNat 64 v, BitVec.ofNat 64 (v >>> 64), BitVec.ofNat 64 (v >>> 128), BitVec.ofNat 64 (v >>> 192)]

/-- The instruction the decoder reads from an instruction whose bits are `w`. -/
def decodeTableWord (nbits w : Nat) : Option Instr :=
  match decode (tableCells nbits w) with
  | .ok (i, _) => some i
  | .error _ => none

end Sys2Proof
end

