-- ==== Sys2Proof/Machine/Fetch.lean ====
section
/-! DEFINITION. The part of a step before the instruction: the sticky statuses, fetch, decode, the range check on the
parameter cells and the parameter fetch (`40_engine.md` R111 to R114 lines 1 to 5, R118). -/

namespace Sys2Proof.Machine

/-- What the fetch finds. -/
inductive Fetched where
  /-- the status is terminal: nothing is fetched (R111) -/
  | stopped
  /-- the step ends in this condition -/
  | raised (c : Condition)
  /-- the instruction to execute -/
  | instr (i : Instr)
deriving DecidableEq, Repr

/-- Lines 1 to 5 of `Step()` (R114). The parameter cells are read where they stand after the word; those an operation
does not have are not used, and a read has no side effect (`20_memory.md` R60). -/
def fetchInstr (s : State) : Fetched :=
  if s.status.terminal then .stopped
  else
    match decodeWord (s.memory.read s.pc) with
    | .error _ => .raised .decodeError
    | .ok h =>
      if s.pc + h.op.arity > Config.int64Max then .raised .invalidPC
      else .instr (h.instr (s.memory.read (s.pc + 1)) (s.memory.read (s.pc + 2)) (s.memory.read (s.pc + 3)))

/-- Cells laid out from address `a` on, as far as the address space goes. -/
def layCells (m : Memory) (a : Nat) : List Word → Memory
  | [] => m
  | v :: vs => layCells (if a ≤ Config.int64Max then m.write a v else m) (a + 1) vs

end Sys2Proof.Machine
end

