-- ==== Sys2Proof/Machine/Step.lean ====
section
/-! DEFINITION. One step (`40_engine.md` R110, R114). -/

namespace Sys2Proof.Machine

/-- `Step()` (R114): a no-op on a terminal status, the raised condition, or the instruction executed. -/
def step (s : State) : Host.Outcome State Fault Refusal :=
  match fetchInstr s with
  | .stopped => .next s
  | .raised c => .next (s.raise c)
  | .instr i => exec i s

/-- `s` with the instruction whose bits are `w` in the cells at `pc`, and a terminal status, on which nothing would be
fetched, set back to running (log entry 11). -/
def State.withFetchWord (s : State) (nbits w : Nat) : State :=
  { s with
    memory := layCells s.memory s.pc (tableCells nbits w)
    status := if s.status.terminal then .running else s.status }

end Sys2Proof.Machine
end

