-- ==== Sys2Proof/Machine/TapeText.lean ====
section
/-! DEFINITION. The program text format, read into the tape that `load` takes (`30_encoding.md` R98; the spec's decision
D23, log entry 23). -/

namespace Sys2Proof.Machine

/-- Space, tab, carriage return, line feed: what is trimmed (R98). -/
def isBlank (c : Char) : Bool := c == ' ' || c == '\t' || c == '\r' || c == '\n'

/-- The text without blanks at its two ends. -/
def trimBlanks (cs : List Char) : List Char := ((cs.dropWhile isBlank).reverse.dropWhile isBlank).reverse

/-- The items between the commas, one more than there are commas. -/
def splitCommas : List Char → List (List Char)
  | [] => [[]]
  | c :: cs =>
    match splitCommas cs with
    | [] => [[c]]
    | item :: items => if c = ',' then [] :: item :: items else (c :: item) :: items

/-- Decimal digits read on from a value; `none` where another character stands. -/
def digitsFrom : Nat → List Char → Option Nat
  | n, [] => some n
  | n, c :: cs => if '0' ≤ c ∧ c ≤ '9' then digitsFrom (10 * n + (c.toNat - 48)) cs else none

/-- One or more decimal digits. -/
def parseDigits : List Char → Option Nat
  | [] => none
  | c :: cs => digitsFrom 0 (c :: cs)

/-- An optional sign and one or more decimal digits. -/
def parseInt : List Char → Option Int
  | '-' :: cs => (parseDigits cs).map fun n : Nat => -(n : Int)
  | '+' :: cs => (parseDigits cs).map fun n : Nat => (n : Int)
  | cs => (parseDigits cs).map fun n : Nat => (n : Int)

/-- One item, trimmed, as a cell; `none` for a number outside `Int64`. -/
def parseItem (cs : List Char) : Option Word :=
  match parseInt (trimBlanks cs) with
  | none => none
  | some z => if Config.int64Min ≤ z ∧ z ≤ (Config.int64Max : Int) then some (wrap64 z) else none

/-- The items as cells, all of them or none. -/
def parseItems : List (List Char) → Option (List Word)
  | [] => some []
  | item :: items =>
    match parseItem item, parseItems items with
    | some v, some vs => some (v :: vs)
    | _, _ => none

/-- The tape of a program text; `none` is the refusal of a text that does not fit the format (R98, U9). -/
def parseTape (text : List Char) : Option (List Word) := parseItems (splitCommas (trimBlanks text))

/-! ### The format itself, for the statements -/

/-- The number that decimal digits denote. -/
def digitsValue (ds : List Char) : Nat := ds.foldl (fun n c => 10 * n + (c.toNat - 48)) 0

/-- `item` is an item of the format that denotes the cell `w`: blanks, an optional sign, one or more decimal digits,
blanks; and the integer is in `Int64` (R98). -/
def ItemDenotes (item : List Char) (w : Word) : Prop :=
  ∃ left sign ds right : List Char, item = left ++ sign ++ ds ++ right ∧
    (∀ c ∈ left, isBlank c = true) ∧ (∀ c ∈ right, isBlank c = true) ∧
    ds ≠ [] ∧ (∀ c ∈ ds, '0' ≤ c ∧ c ≤ '9') ∧
    ((sign = ['-'] ∧ w.toInt = -(digitsValue ds : Int)) ∨
      ((sign = [] ∨ sign = ['+']) ∧ w.toInt = (digitsValue ds : Int)))

/-- The shortest text of a cell: a minus sign where it is negative, and its decimal digits. -/
def renderItem (w : Word) : List Char :=
  (if w.toInt < 0 then ['-'] else []) ++ Nat.toDigits 10 w.toInt.natAbs

/-- The text of a tape: its cells between commas. -/
def renderTape : List Word → List Char
  | [] => []
  | [w] => renderItem w
  | w :: ws => renderItem w ++ ',' :: renderTape ws

end Sys2Proof.Machine
end

