-- ==== Sys2Proof/Machine/Commands.lean ====
section
/-! DEFINITION. The host commands that act on one VM instance (`45_host_commands.md`): their effect on its state and
their response. -/

namespace Sys2Proof.Machine

/-- The commands on one instance that `clone`, `dump` and `destroy` are not (`45_host_commands.md`). -/
inductive VmCommand where
  /-- R211 -/
  | load (tape : List Word)
  /-- R213 -/
  | step
  /-- R214; `fuel` bounds the steps the model will follow it for (`40_engine.md` R124) -/
  | run (fuel : Nat)
  /-- R215 -/
  | addInput (v : Word)
  /-- R216 -/
  | pendingInput
  /-- R217 -/
  | pendingOutput
  /-- R218 -/
  | popOutput
  /-- R224 -/
  | memRead (addr : Word)
  /-- R225 -/
  | memWrite (addr value : Word)
  /-- R227 -/
  | patchInstructionAt (addr : Word)
deriving DecidableEq, Repr

/-- The responses of R231. -/
inductive Reply where
  /-- no response (`load`, `add_input`, `destroy`) -/
  | none
  /-- the status after `step` or `run` -/
  | status (st : Status)
  /-- the handle of a new instance (`create`, `clone`) -/
  | handle (h : Nat)
  /-- a queue length, an unbounded natural number (R216, R217) -/
  | count (n : Nat)
  /-- `Some(v)` or `None` (`pop_output`) -/
  | output (v : Option Word)
  /-- `Ok(v)` of `mem_read` -/
  | cell (v : Word)
  /-- `Ok` of `mem_write` and `patch_instruction_at` -/
  | ok
  /-- `Err(MemoryError)` of the three direct memory commands -/
  | memoryError
  /-- the unspecified text of `dump` (R228) -/
  | text (t : String)
deriving DecidableEq, Repr

/-- The effect of `load` on a fresh instance: the tape in cells `0 .. N-1`, all other cells 0 (R211). -/
def State.load (s : State) (tape : List Word) : State := { s with memory := Memory.writeFrom [] 0 tape }

/-- `Run()`: one step at least, then on while the status is Running (`40_engine.md` R123). `none`: it has not returned
after `fuel` steps (R124). -/
def State.run : Nat → State → Option State
  | 0, _ => none
  | fuel + 1, s =>
    match step s with
    | .next t => if t.status = .running then State.run fuel t else some t
    | .fault _ => none
    | .refused _ => none

/-- `push_back(IQ, v)`: the effect of `add_input` (R215). -/
def State.addInput (s : State) (v : Word) : State := { s with inputQueue := s.inputQueue ++ [v] }

/-- `pop_output`: the front of the output queue, if any, and the state without it (R218). -/
def State.popOutput (s : State) : Option Word × State :=
  match s.outputQueue with
  | [] => (none, s)
  | v :: rest => (some v, { s with outputQueue := rest })

/-- `mem_read`: the cell, or `MemoryError` for a negative address; the state is not touched (R224). -/
def State.memRead (s : State) (addr : Word) : Except Condition Word := readAt s (toAddr addr.toInt)

/-- `mem_write`: the state with the cell written, or `MemoryError` for a negative address (R225). -/
def State.memWrite (s : State) (addr value : Word) : Except Condition State :=
  match toAddr addr.toInt with
  | .ok a => .ok (s.store a value)
  | .error c => .error c

/-- The word with the jump's polarity inverted: opcode field 5 becomes 6 and 6 becomes 5 (R227). `none`: the word is no
jump word. -/
def invertJump (w : Word) : Option Word :=
  if w.toInt < 0 then none
  else if opcodeField w.toNat = 5 then some (wrap64 (w.toInt + 1))
  else if opcodeField w.toNat = 6 then some (wrap64 (w.toInt - 1))
  else none

/-- A command on one instance in state `s`, fresh or not: the state after it and its response. Every command but
`load` is accepted in every status (R212). -/
def State.perform (c : VmCommand) (fresh : Bool) (s : State) : Host.Outcome (State × Reply) Fault Refusal :=
  match c with
  | .load tape =>
    if fresh then
      if tape.length ≤ Config.int64Max + 1 then .next (s.load tape, .none) else .refused .tapeTooLong
    else .refused .loadNotFresh
  | .step =>
    match Sys2Proof.Machine.step s with
    | .next t => .next (t, .status t.status)
    | .fault r => .fault r
    | .refused r => .refused r
  | .run fuel =>
    match s.run fuel with
    | some t => .next (t, .status t.status)
    | none => .refused .runUnfinished
  | .addInput v => .next (s.addInput v, .none)
  | .pendingInput => .next (s, .count s.inputQueue.length)
  | .pendingOutput => .next (s, .count s.outputQueue.length)
  | .popOutput => .next (s.popOutput.2, .output s.popOutput.1)
  | .memRead addr =>
    match s.memRead addr with
    | .ok v => .next (s, .cell v)
    | .error _ => .next (s, .memoryError)
  | .memWrite addr value =>
    match s.memWrite addr value with
    | .ok t => .next (t, .ok)
    | .error _ => .next (s, .memoryError)
  | .patchInstructionAt addr =>
    match toAddr addr.toInt with
    | .error _ => .next (s, .memoryError)
    | .ok a =>
      match invertJump (s.memory.read a) with
      | some w => .next (s.store a w, .ok)
      | none => .refused .patchNotJump

end Sys2Proof.Machine
end

