-- ==== Sys2Proof/Machine/Instances.lean ====
section
/-! DEFINITION. The live VM instances by handle, and the commands that make, copy, show and end one
(`45_host_commands.md` R210, R228, R229; `46_snapshot_clone.md`). -/

namespace Sys2Proof.Machine

/-- An instance as the host holds it: its state, and whether it is fresh (`00_scope.md` R17). -/
structure Vm where
  state : State
  fresh : Bool
deriving DecidableEq, Repr

/-- The instances that exist, each under its handle; the next handle; and how many `dump` texts were drawn, the
argument of the free value `Config.dumpText` (log entries 15 and 20). -/
structure World where
  live : List (Nat × Vm)
  nextHandle : Nat
  draws : Nat
deriving DecidableEq, Repr

/-- No instance yet. -/
def World.empty : World := { live := [], nextHandle := 0, draws := 0 }

/-- The commands of the binding surface, on handles. -/
inductive Command where
  /-- R210 -/
  | create
  /-- a command on one instance -/
  | on (h : Nat) (c : VmCommand)
  /-- `46_snapshot_clone.md` R250 -/
  | clone (h : Nat)
  /-- R228 -/
  | dump (h : Nat)
  /-- R229 -/
  | destroy (h : Nat)
deriving DecidableEq, Repr

/-- The instance under a handle in a table of instances. -/
def lookupVm : List (Nat × Vm) → Nat → Option Vm
  | [], _ => none
  | (k, vm) :: rest, h => if k = h then some vm else lookupVm rest h

/-- The instance under a handle, if it is live. -/
def World.find (w : World) (h : Nat) : Option Vm := lookupVm w.live h

/-- The instance under a live handle replaced. -/
def World.put (w : World) (h : Nat) (vm : Vm) : World :=
  { w with live := w.live.map fun e => if e.1 = h then (e.1, vm) else e }

/-- A new instance under a handle never given before (R210, R250). -/
def World.add (w : World) (vm : Vm) : World :=
  { w with live := w.live ++ [(w.nextHandle, vm)], nextHandle := w.nextHandle + 1 }

/-- The instance under a handle gone (R229). -/
def World.remove (w : World) (h : Nat) : World := { w with live := w.live.filter fun e => decide (e.1 ≠ h) }

/-- One command, atomic (`00_scope.md` R15): the world after it and its response. A command on a handle that is not
live is refused (R229). An instance any command but `create` has acted on is fresh no more (R17; log entry 16). -/
def World.command (w : World) (c : Command) : Host.Outcome (World × Reply) Fault Refusal :=
  match c with
  | .create => .next (w.add ⟨State.reset, true⟩, .handle w.nextHandle)
  | .on h vc =>
    match w.find h with
    | none => .refused .noSuchInstance
    | some vm =>
      match State.perform vc vm.fresh vm.state with
      | .next (t, r) => .next (w.put h ⟨t, false⟩, r)
      | .fault r => .fault r
      | .refused r => .refused r
  | .clone h =>
    match w.find h with
    | none => .refused .noSuchInstance
    | some vm => .next ((w.put h ⟨vm.state, false⟩).add ⟨vm.state, false⟩, .handle w.nextHandle)
  | .dump h =>
    match w.find h with
    | none => .refused .noSuchInstance
    | some vm => .next ({ w.put h ⟨vm.state, false⟩ with draws := w.draws + 1 }, .text (Config.dumpText w.draws))
  | .destroy h =>
    match w.find h with
    | none => .refused .noSuchInstance
    | some _ => .next (w.remove h, .none)

end Sys2Proof.Machine
end

