-- ==== Sys2Proof/Safety.lean ====
section
/-! DEFINITION. What counts as a good state and a good end, and what the table of `40_engine.md` R117 says of an
instruction, in the terms the statements use (`10_state.md` R22, R30; `00_scope.md` R17; `70_reset_and_hazards.md`
R305). -/

namespace Sys2Proof.Machine

/-- What every reachable state meets: the memory in its canonical form over `0 .. 2^63-1`, and `pc` in that range
(`10_state.md` R22, R30). -/
abbrev State.Inv (s : State) : Prop := s.memory.wf = true ∧ s.pc ≤ Config.int64Max

/-- A status on which a step executes: Running or NeedsInput, which a step treats alike (`10_state.md` R27). -/
abbrev State.Active (s : State) : Prop := s.status.terminal = false

/-- One of the three error statuses (`00_scope.md` R17). -/
def Status.fault : Status → Bool
  | .running => false
  | .halted => false
  | .invalidPC => true
  | .memoryError => true
  | .decodeError => true
  | .needsInput => false

/-- The run of the program is over (`70_reset_and_hazards.md` R305). -/
abbrev State.Over (s : State) : Prop := s.status.terminal = true

/-- Only Halted is a successful end (R305). -/
abbrev State.Successful (s : State) : Prop := s.status = .halted

/-- The operands of the instruction raise nothing: none of them has an address outside `0 .. 2^63-1` (`40_engine.md`
R115, R116). An immediate operand has no address. -/
abbrev State.Resolves (s : State) (i : Instr) : Prop := ∀ o ∈ i.operands, adr s o ≠ .error .memoryError

/-- The instruction does not wait for input: an input finds a value in the queue (`42_io.md` R160). -/
abbrev State.HasInput (s : State) (i : Instr) : Prop := ∀ dst, i = .input dst → s.inputQueue ≠ []

/-- The column `npc` of `40_engine.md` R117: the instruction goes to `z`, inside the range of `pc` or not. A halt goes
nowhere. -/
def State.GoesTo (s : State) (i : Instr) (z : Int) : Prop :=
  match i with
  | .add _ _ _ => z = s.pc + 4
  | .mul _ _ _ => z = s.pc + 4
  | .input _ => z = s.pc + 2
  | .output _ => z = s.pc + 2
  | .jumpIfTrue a b => ∃ x y, val s a = .ok x ∧ val s b = .ok y ∧ z = if x.toInt ≠ 0 then y.toInt else s.pc + 3
  | .jumpIfFalse a b => ∃ x y, val s a = .ok x ∧ val s b = .ok y ∧ z = if x.toInt = 0 then y.toInt else s.pc + 3
  | .lessThan _ _ _ => z = s.pc + 4
  | .equals _ _ _ => z = s.pc + 4
  | .adjustRelativeBase _ => z = s.pc + 2
  | .halt => False

/-- The memory writes of the column `E` of `40_engine.md` R117: the instruction's sources resolve in `s`, and it writes
`v` to cell `d`. -/
def State.Stores (s : State) (i : Instr) (d : Nat) (v : Word) : Prop :=
  match i with
  | .add a b dst => adr s dst = .ok d ∧ ∃ x y, val s a = .ok x ∧ val s b = .ok y ∧ v = wrap64 (x.toInt + y.toInt)
  | .mul a b dst => adr s dst = .ok d ∧ ∃ x y, val s a = .ok x ∧ val s b = .ok y ∧ v = wrap64 (x.toInt * y.toInt)
  | .input dst => adr s dst = .ok d ∧ s.inputQueue.head? = some v
  | .output _ => False
  | .jumpIfTrue _ _ => False
  | .jumpIfFalse _ _ => False
  | .lessThan a b dst =>
    adr s dst = .ok d ∧ ∃ x y, val s a = .ok x ∧ val s b = .ok y ∧ v = if x.toInt < y.toInt then 1 else 0
  | .equals a b dst =>
    adr s dst = .ok d ∧ ∃ x y, val s a = .ok x ∧ val s b = .ok y ∧ v = if x.toInt = y.toInt then 1 else 0
  | .adjustRelativeBase _ => False
  | .halt => False

/-- The memory of `t` reads as `cell` everywhere, and what is fetched in `t` is what stands there: the word at `pc`
refused is `DecodeError`; otherwise the instruction of that word and of the cells after it runs, where those lie inside
the address space, and is `InvalidPC` where they do not (`40_engine.md` R112, R113, R118; `20_memory.md` R66). -/
def State.FetchesFrom (t : State) (cell : Nat → Word) : Prop :=
  (∀ c, t.memory.read c = cell c) ∧
  (∀ e, decodeWord (cell t.pc) = .error e → step t = .next (t.raise .decodeError)) ∧
  (∀ h, decodeWord (cell t.pc) = .ok h → Config.int64Max < t.pc + h.op.arity → step t = .next (t.raise .invalidPC)) ∧
  (∀ h, decodeWord (cell t.pc) = .ok h → t.pc + h.op.arity ≤ Config.int64Max →
    fetchInstr t = .instr (h.instr (cell (t.pc + 1)) (cell (t.pc + 2)) (cell (t.pc + 3))) ∧
    step t = exec (h.instr (cell (t.pc + 1)) (cell (t.pc + 2)) (cell (t.pc + 3))) t)

/-- What every reachable table of instances meets: handles distinct and below the next one, every state good. -/
abbrev World.Inv (w : World) : Prop :=
  (w.live.map (·.1)).Nodup ∧ ∀ e ∈ w.live, e.1 < w.nextHandle ∧ e.2.state.Inv

end Sys2Proof.Machine
end

