-- ==== Sys2Proof/Certificates/Slice0/Obligations.lean ====
section
/-! DEFINITION. The statements for the provers. Each says in its docstring which rule or section of spec/ it rests on;
where it rests on a decision the spec marks as its own (D<n>), it names that decision and the log entry. -/

open Sys2Proof Sys2Proof.Machine

/-! ### Encoding and decoding -/

/-- `30_encoding.md` R85, R88, R97: decoding the cells of a well-formed instruction gives it back, and the cells after
it, for every operand in every mode. The encoding formula is the spec's decision D22. -/
def Obligations.DecodeOfEncodeIsTheInstruction : Prop :=
  ∀ (i : Instr) (rest : List Word), i.wellFormed = true → decode (encode i ++ rest) = .ok (i, rest)

/-- Words written out from the decimal layout of R81 and the examples of `95_test_vectors.md` 2.1, one or more for each
operation. That 1099 is halt, its mode digits ignored, is the spec's decision D8 (log entry 8). -/
def Obligations.WrittenOutWordsDecode : Prop :=
  decode [1201, 3, 7, 10, 99] = .ok (.add ⟨.relative, 3⟩ ⟨.immediate, 7⟩ ⟨.position, 10⟩, [99]) ∧
  decode [1002, 4, 3, 4] = .ok (.mul ⟨.position, 4⟩ ⟨.immediate, 3⟩ ⟨.position, 4⟩, []) ∧
  decode [203, 5] = .ok (.input ⟨.relative, 5⟩, []) ∧
  decode [104, -7] = .ok (.output ⟨.immediate, -7⟩, []) ∧
  decode [1005, 9, 6] = .ok (.jumpIfTrue ⟨.position, 9⟩ ⟨.immediate, 6⟩, []) ∧
  decode [2106, 0, 7] = .ok (.jumpIfFalse ⟨.immediate, 0⟩ ⟨.relative, 7⟩, []) ∧
  decode [107, 0, 100, 102] = .ok (.lessThan ⟨.immediate, 0⟩ ⟨.position, 100⟩ ⟨.position, 102⟩, []) ∧
  decode [20208, 1, 2, 3] = .ok (.equals ⟨.relative, 1⟩ ⟨.position, 2⟩ ⟨.relative, 3⟩, []) ∧
  decode [209, 1] = .ok (.adjustRelativeBase ⟨.relative, 1⟩, []) ∧
  decode [1099] = .ok (.halt, [])

/-- `30_encoding.md` R81, R82, R85, R88: the decoder answers an operation and modes exactly where the word is not
negative, its two low digits are the operation's opcode, and the digit of weight `10^(k+2)` is the mode of the operation's
parameter `k+1`, not immediate where that parameter is written. That a negative word and the digits 3 to 9 are refused
and that other digits are ignored are the spec's decisions D6, D7, D8 (log entries 7, 8). A parameter the operation does
not have is given position mode, which is the model's convention. -/
def Obligations.DecodeReadsTheDecimalFields : Prop :=
  ∀ (w : Word) (h : Header), decodeWord w = .ok h ↔
    0 ≤ w.toInt ∧ h.op.number = w.toNat % 100 ∧
    ∀ k m, [h.m1, h.m2, h.m3][k]? = some m →
      match h.op.roles[k]? with
      | none => m = .position
      | some role => m.digit = w.toNat / 10 ^ (k + 2) % 10 ∧ (role = .write → m ≠ .immediate)

/-- `30_encoding.md` R90: any other opcode is `DecodeError`; the words covered are those ending in 00 and in 10 to 98;
a cell holding 0 is one, so running off the loaded program ends in `DecodeError`. -/
def Obligations.UnsupportedOpcodeIsDecodeError : Prop :=
  (∀ w : Word, 0 ≤ w.toInt → w.toNat % 100 ∉ [1, 2, 3, 4, 5, 6, 7, 8, 9, 99] → ∃ e, decodeWord w = .error e) ∧
  (∀ s : State, s.Active → 0 ≤ (s.memory.read s.pc).toInt →
    (s.memory.read s.pc).toNat % 100 ∉ [1, 2, 3, 4, 5, 6, 7, 8, 9, 99] → step s = .next (s.raise .decodeError)) ∧
  (∀ s : State, s.Active → s.memory.read s.pc = 0 → step s = .next (s.raise .decodeError))

/-- `30_encoding.md` R92: `m3 = 1` for opcodes 1, 2, 7, 8 and `m1 = 1` for opcode 3 are `DecodeError`, with the rule's
three examples. -/
def Obligations.ImmediateWriteParameterIsDecodeError : Prop :=
  (∀ w : Word, 0 ≤ w.toInt →
    (w.toNat % 100 ∈ [1, 2, 7, 8] ∧ w.toNat / 10000 % 10 = 1) ∨ (w.toNat % 100 = 3 ∧ w.toNat / 100 % 10 = 1) →
    (∃ e, decodeWord w = .error e) ∧
    ∀ s : State, s.Active → s.memory.read s.pc = w → step s = .next (s.raise .decodeError)) ∧
  (∀ w : Word, w ∈ [10001, 11102, 103] → ∃ e, decodeWord w = .error e)

/-- Negative words (the spec's decision D6) and mode digits 3 to 9 of a parameter the operation has (D7) are refused
(log entry 7). -/
def Obligations.NegativeWordsAndOtherDigitsAreRefused : Prop :=
  (∀ w : Word, w.toInt < 0 → decodeWord w = .error .negativeWord) ∧
  (∀ (w : Word) (op : Opcode) (k : Nat), 0 ≤ w.toInt → op.number = w.toNat % 100 → k < op.arity →
    2 < w.toNat / 10 ^ (k + 2) % 10 → ∃ e, decodeWord w = .error e)

/-- The digits of absent parameters and of weight `10^5` and above do not affect decoding (the spec's decision D8, log
entry 8): two words with the same opcode field and the same mode digits of the parameters the operation has decode
alike. -/
def Obligations.IgnoredDigitsAreNotExamined : Prop :=
  ∀ (w v : Word) (op : Opcode), 0 ≤ w.toInt → 0 ≤ v.toInt → op.number = w.toNat % 100 → op.number = v.toNat % 100 →
    (∀ k, k < op.arity → w.toNat / 10 ^ (k + 2) % 10 = v.toNat / 10 ^ (k + 2) % 10) → decodeWord w = decodeWord v

/-- `30_encoding.md` section 4, R94: the canonical words that decode are these 99. That every other canonical word is
refused rests on the spec's decisions D7 for the mode digits 3 to 9 and D6 for negative words (R91, R83; log entry 7). -/
def Obligations.CanonicalLegalWordsAreTheNinetyNine : Prop :=
  ∀ w : Word, (canonicalWord w.toNat = true ∧ ∃ h, decodeWord w = .ok h) ↔
    w.toNat ∈
      [1, 101, 201, 1001, 1101, 1201, 2001, 2101, 2201, 20001, 20101, 20201, 21001, 21101, 21201, 22001, 22101, 22201] ++
      [2, 102, 202, 1002, 1102, 1202, 2002, 2102, 2202, 20002, 20102, 20202, 21002, 21102, 21202, 22002, 22102, 22202] ++
      [7, 107, 207, 1007, 1107, 1207, 2007, 2107, 2207, 20007, 20107, 20207, 21007, 21107, 21207, 22007, 22107, 22207] ++
      [8, 108, 208, 1008, 1108, 1208, 2008, 2108, 2208, 20008, 20108, 20208, 21008, 21108, 21208, 22008, 22108, 22208] ++
      [5, 105, 205, 1005, 1105, 1205, 2005, 2105, 2205] ++ [6, 106, 206, 1006, 1106, 1206, 2006, 2106, 2206] ++
      [3, 203] ++ [4, 104, 204] ++ [9, 109, 209] ++ [99]

/-- `30_encoding.md` R84, R92: whatever cells are decoded, the instruction's write parameter is not immediate. -/
def Obligations.DecodedInstructionsAreWellFormed : Prop :=
  ∀ (cells rest : List Word) (i : Instr), decode cells = .ok (i, rest) → i.wellFormed = true

/-! ### The step -/

/-- `40_engine.md` R112, R113, R114: on a status that is not terminal, where the cells at `pc` decode to an instruction
and its parameter cells lie inside the address space, the step is that instruction's `exec`, on the same state: the
machine moves `pc` nowhere else. -/
def Obligations.StepRunsTheDecodedInstruction : Prop :=
  ∀ (s : State) (i : Instr) (rest : List Word), s.Active →
    decode [s.memory.read s.pc, s.memory.read (s.pc + 1), s.memory.read (s.pc + 2), s.memory.read (s.pc + 3)]
      = .ok (i, rest) →
    s.pc + i.arity ≤ Config.int64Max → i.wellFormed = true ∧ step s = exec i s

/-- `40_engine.md` R111: on Halted, InvalidPC, MemoryError and DecodeError the step changes nothing, fetches nothing
and returns the status. -/
def Obligations.TerminalStepChangesNothing : Prop :=
  ∀ s : State, (s.status = .halted ∨ s.status = .invalidPC ∨ s.status = .memoryError ∨ s.status = .decodeError) →
    fetchInstr s = .stopped ∧ step s = .next s ∧
    ∀ fresh, State.perform .step fresh s = .next (s, .status s.status)

/-- `40_engine.md` R112: on Running and NeedsInput the word at `pc` is decoded; a refused word ends the step in
`DecodeError` with no other change, a never-written cell among them; a step from NeedsInput is in no way special; and
the read is at a legal address in every state that meets the invariant. -/
def Obligations.FetchDecodesTheWordAtPc : Prop :=
  (∀ (s : State) (e : Reject), (s.status = .running ∨ s.status = .needsInput) →
    decodeWord (s.memory.read s.pc) = .error e → step s = .next { s with status := .decodeError }) ∧
  (∀ s : State, (s.status = .running ∨ s.status = .needsInput) → (∀ c ∈ s.memory, c.1 ≠ s.pc) →
    step s = .next { s with status := .decodeError }) ∧
  (∀ s : State, step { s with status := .needsInput } = step { s with status := .running }) ∧
  (∀ s : State, s.Inv → LegalAddr (s.pc : Int))

/-- `40_engine.md` R118, which is the spec's decision D3 (log entry 4): a decoded word whose parameter cells would lie
beyond `2^63-1` is `InvalidPC`, with no other change. -/
def Obligations.ParameterCellsBeyondTheEndAreInvalidPC : Prop :=
  ∀ (s : State) (h : Header), s.Active → decodeWord (s.memory.read s.pc) = .ok h →
    Config.int64Max < s.pc + h.op.arity → step s = .next (s.raise .invalidPC)

/-- A step always answers a next state; no condition, of any instruction, in any state, ends in a model fault or a
refusal. That every condition is a next state is the model's reading of the spec (DEDUCED, log entry 12), from the
precise raises of `60_exceptions.md` sections 1 and 3. -/
def Obligations.StepAlwaysAnswers : Prop := ∀ s : State, ∃ t, step s = .next t

/-- `10_state.md` R22, R30; `20_memory.md` R54: every step keeps the memory canonical over the legal addresses and `pc`
in `0 .. 2^63-1`. That `pc` has this range is the spec's decision D3; the canonical form is the model's (log entry 1). -/
def Obligations.StepKeepsTheInvariant : Prop := ∀ s t : State, s.Inv → step s = .next t → t.Inv

/-- `10_state.md` R36 with an empty tape: every component after reset. The zero `pc` and `rb` and the empty queues are
the spec's decision D12 (log entry 10). -/
def Obligations.ResetValues : Prop :=
  (∀ a, State.reset.memory.read a = 0) ∧ State.reset.pc = 0 ∧ State.reset.rb = 0 ∧ State.reset.inputQueue = [] ∧
  State.reset.outputQueue = [] ∧ State.reset.status = .running

/-- The state after reset (`10_state.md` R36) meets the invariant: the memory in its canonical form, which is the model's
design choice (log entry 1), and `pc` in `0 .. 2^63-1`, which is the spec's decision D3 (log entry 4). -/
def Obligations.ResetMeetsTheInvariant : Prop := State.reset.Inv

/-- `60_exceptions.md` R266, which is the spec's decision D9 (log entry 5), and `43_control.md` R182: a step that does
not leave the status Running has changed the status and nothing else. -/
def Obligations.RaisedConditionsChangeOnlyTheStatus : Prop :=
  ∀ s t : State, step s = .next t → t.status ≠ .running → t = { s with status := t.status }

/-- `10_state.md` R27 (with the spec's decision D25, log entry 29): when a step from Running or NeedsInput ends in each of
the six statuses. `GoesTo` is the column `npc` of `40_engine.md` R117. The ranges that `InvalidPC` checks are D3 (log
entry 4), an address above `2^63-1` is D5 (log entry 3), the order of the conditions D10 (log entry 6), the words the
decoder refuses D6 and D7 besides R90 and R92 (log entry 7). -/
def Obligations.StatusTransitionsOfAStep : Prop :=
  ∀ s t : State, s.Active → step s = .next t →
    (t.status = .running ↔ ∃ i z, fetchInstr s = .instr i ∧ s.HasInput i ∧ s.Resolves i ∧ s.GoesTo i z ∧ LegalAddr z) ∧
    (t.status = .halted ↔ fetchInstr s = .instr .halt) ∧
    (t.status = .needsInput ↔ (∃ dst, fetchInstr s = .instr (.input dst)) ∧ s.inputQueue = []) ∧
    (t.status = .decodeError ↔ ∃ e, decodeWord (s.memory.read s.pc) = .error e) ∧
    (t.status = .memoryError ↔ ∃ i, fetchInstr s = .instr i ∧ s.HasInput i ∧ ¬ s.Resolves i) ∧
    (t.status = .invalidPC ↔
      (∃ h, decodeWord (s.memory.read s.pc) = .ok h ∧ Config.int64Max < s.pc + h.op.arity) ∨
      ∃ i z, fetchInstr s = .instr i ∧ s.HasInput i ∧ s.Resolves i ∧ s.GoesTo i z ∧ ¬ LegalAddr z)

/-- `40_engine.md` R121: an input instruction on an empty queue suspends with only the status changed; again while the
queue stays empty it changes nothing; with a value added, the step is the same input instruction at the same `pc`, and
it consumes that value. -/
def Obligations.SuspendedInputIsRetried : Prop :=
  ∀ (s : State) (dst : Operand), s.Active → fetchInstr s = .instr (.input dst) → s.inputQueue = [] →
    step s = .next { s with status := .needsInput } ∧
    step { s with status := .needsInput } = .next { s with status := .needsInput } ∧
    ∀ v, step (State.addInput { s with status := .needsInput } v)
          = exec (.input dst) (State.addInput { s with status := .needsInput } v) ∧
      ∀ d, adr s dst = .ok d → s.pc + 2 ≤ Config.int64Max →
        step (State.addInput { s with status := .needsInput } v)
          = .next { s with memory := s.memory.write d v, pc := s.pc + 2, status := .running }

/-- `40_engine.md` R122: suspending and then adding a value gives the same step as having the value from the start. -/
def Obligations.SuspensionIsExact : Prop :=
  ∀ (s u : State) (dst : Operand) (v : Word), s.status = .running → s.inputQueue = [] →
    fetchInstr s = .instr (.input dst) → step s = .next u → step (u.addInput v) = step (s.addInput v)

/-- `40_engine.md` R123 (with the spec's decision D14, log entry 18): `run` returns with a status that is not Running,
after at least one step, at the first step that leaves such a status, in the state that many steps give; and wherever
there is such a first step, `run` followed for that many steps or more does return, with that status. While every step
leaves Running it has not returned (R124), which the model answers by a refusal (log entry 18). -/
def Obligations.RunIsRepeatedStep : Prop :=
  (∀ (n : Nat) (s t : State), State.run n s = some t →
    t.status ≠ .running ∧
    ∃ k, 1 ≤ k ∧ k ≤ n ∧ Sys2Proof.core.run k s = .next t ∧
      ∀ j, 1 ≤ j → j < k → ∃ u : State, Sys2Proof.core.run j s = .next u ∧ u.status = .running) ∧
  (∀ (k n : Nat) (s t : State) (fresh : Bool), 1 ≤ k → k ≤ n → Sys2Proof.core.run k s = .next t →
    t.status ≠ .running →
    (∀ j, 1 ≤ j → j < k → ∃ u : State, Sys2Proof.core.run j s = .next u ∧ u.status = .running) →
    State.run n s = some t ∧ State.perform (.run n) fresh s = .next (t, .status t.status)) ∧
  (∀ (n : Nat) (s : State) (fresh : Bool),
    (∀ j, 1 ≤ j → j ≤ n → ∃ u : State, Sys2Proof.core.run j s = .next u ∧ u.status = .running) →
    State.perform (.run n) fresh s = .refused .runUnfinished)

/-- `60_exceptions.md` R266, `43_control.md` R182, `44_relative_base.md` R200, `42_io.md` R160, R161, `10_state.md` R25,
R31, R32: over all instructions, only adjust-relative-base changes `rb`, only output the output queue, only input the
input queue, only an instruction with a write parameter the memory; and `pc` moves only to the next instruction, unless
the instruction is a jump. -/
def Obligations.StepWritesOnlyWhatItsInstructionWrites : Prop :=
  ∀ s t : State, step s = .next t →
    (t.rb ≠ s.rb → ∃ a, fetchInstr s = .instr (.adjustRelativeBase a)) ∧
    (t.outputQueue ≠ s.outputQueue → ∃ a, fetchInstr s = .instr (.output a)) ∧
    (t.inputQueue ≠ s.inputQueue → ∃ dst, fetchInstr s = .instr (.input dst)) ∧
    (t.memory ≠ s.memory → ∃ i dst, fetchInstr s = .instr i ∧ i.dst? = some dst) ∧
    (t.pc ≠ s.pc → ∃ i, fetchInstr s = .instr i ∧
      (t.pc = s.pc + 1 + i.arity ∨ ∃ a b, i = .jumpIfTrue a b ∨ i = .jumpIfFalse a b))

/-! ### Operands and arithmetic -/

/-- `40_engine.md` R115, R116: the value of a read parameter and the address of a write parameter in each mode. That a
relative sum is not wrapped and that an address above `2^63-1` is `MemoryError` are the spec's decision D5 (log
entry 3). -/
def Obligations.OperandsResolveByMode : Prop :=
  ∀ (s : State) (p : Word),
    val s ⟨.immediate, p⟩ = .ok p ∧
    val s ⟨.position, p⟩ = (if LegalAddr p.toInt then .ok (s.memory.read p.toInt.toNat) else .error .memoryError) ∧
    val s ⟨.relative, p⟩ =
      (if LegalAddr (s.rb.toInt + p.toInt) then .ok (s.memory.read (s.rb.toInt + p.toInt).toNat)
       else .error .memoryError) ∧
    adr s ⟨.position, p⟩ = (if LegalAddr p.toInt then .ok p.toInt.toNat else .error .memoryError) ∧
    adr s ⟨.relative, p⟩ =
      (if LegalAddr (s.rb.toInt + p.toInt) then .ok (s.rb.toInt + p.toInt).toNat else .error .memoryError)

/-- `00_scope.md` R8: `wrap64` by its formula, and unchanged inside `Int64`. That results wrap is the spec's decision D2
(log entry 2). -/
def Obligations.WrapIsTwosComplement : Prop :=
  ∀ z : Int, (wrap64 z).toInt = (z + 9223372036854775808) % 18446744073709551616 - 9223372036854775808 ∧
    (Config.int64Min ≤ z → z ≤ (Config.int64Max : Int) → (wrap64 z).toInt = z)

/-- add, `41_arithmetic.md` R140: with both sources and the destination resolved and `pc + 4` in range, the sum goes to
the destination and `pc` moves by 4. Wraparound is the spec's decision D2 (log entry 2), the range of `pc` D3 (log
entry 4). -/
def Obligations.AddStoresTheSum : Prop :=
  ∀ (a b dst : Operand) (s : State) (x y : Word) (d : Nat), val s a = .ok x → val s b = .ok y → adr s dst = .ok d →
    s.pc + 4 ≤ Config.int64Max →
    exec (.add a b dst) s =
      .next { s with memory := s.memory.write d (wrap64 (x.toInt + y.toInt)), pc := s.pc + 4, status := .running }

/-- mul, `41_arithmetic.md` R141: as add, with the product. Wraparound is D2 (log entry 2), the range of `pc` D3 (log
entry 4). -/
def Obligations.MulStoresTheProduct : Prop :=
  ∀ (a b dst : Operand) (s : State) (x y : Word) (d : Nat), val s a = .ok x → val s b = .ok y → adr s dst = .ok d →
    s.pc + 4 ≤ Config.int64Max →
    exec (.mul a b dst) s =
      .next { s with memory := s.memory.write d (wrap64 (x.toInt * y.toInt)), pc := s.pc + 4, status := .running }

/-- less-than, `41_arithmetic.md` R142: 1 or 0 by the signed comparison. The range of `pc` is D3 (log entry 4). -/
def Obligations.LessThanStoresTheSignedComparison : Prop :=
  ∀ (a b dst : Operand) (s : State) (x y : Word) (d : Nat), val s a = .ok x → val s b = .ok y → adr s dst = .ok d →
    s.pc + 4 ≤ Config.int64Max →
    exec (.lessThan a b dst) s =
      .next { s with memory := s.memory.write d (if x.toInt < y.toInt then 1 else 0), pc := s.pc + 4, status := .running }

/-- equals, `41_arithmetic.md` R143: 1 or 0 by equality of the values. The range of `pc` is D3 (log entry 4). -/
def Obligations.EqualsStoresTheComparison : Prop :=
  ∀ (a b dst : Operand) (s : State) (x y : Word) (d : Nat), val s a = .ok x → val s b = .ok y → adr s dst = .ok d →
    s.pc + 4 ≤ Config.int64Max →
    exec (.equals a b dst) s =
      .next { s with memory := s.memory.write d (if x.toInt = y.toInt then 1 else 0), pc := s.pc + 4, status := .running }

/-- The frame of add, mul, less-than, equals (`41_arithmetic.md`; `40_engine.md` R117): `rb` and both queues are
unchanged, and every cell but the destination; where the destination does not resolve, all of memory. -/
def Obligations.ArithmeticFrame : Prop :=
  ∀ (a b dst : Operand) (i : Instr) (s t : State),
    (i = .add a b dst ∨ i = .mul a b dst ∨ i = .lessThan a b dst ∨ i = .equals a b dst) → exec i s = .next t →
    t.rb = s.rb ∧ t.inputQueue = s.inputQueue ∧ t.outputQueue = s.outputQueue ∧
    (∀ d, adr s dst = .ok d → ∀ c, c ≠ d → t.memory.read c = s.memory.read c) ∧
    ((∀ d, adr s dst ≠ .ok d) → ∀ c, t.memory.read c = s.memory.read c)

/-! ### Input, output, control, relative base -/

/-- input, `42_io.md` R160: the front value goes to the destination and leaves the queue. The range of `pc` is D3 (log
entry 4). -/
def Obligations.InputStoresTheFrontValue : Prop :=
  ∀ (dst : Operand) (s : State) (v : Word) (rest : List Word) (d : Nat), s.inputQueue = v :: rest →
    adr s dst = .ok d → s.pc + 2 ≤ Config.int64Max →
    exec (.input dst) s =
      .next { s with memory := s.memory.write d v, inputQueue := rest, pc := s.pc + 2, status := .running }

/-- input on an empty queue, `42_io.md` R160: `NeedsInput`, whatever the destination's address is (the spec's decision
D10, log entry 6). -/
def Obligations.InputOnAnEmptyQueueSuspends : Prop :=
  ∀ (dst : Operand) (s : State), dst.writable = true → s.inputQueue = [] →
    exec (.input dst) s = .next { s with status := .needsInput }

/-- The frame of input (`42_io.md` R160): `rb` and the output queue are unchanged, at most the front value leaves the
input queue, and every cell but the destination is unchanged; where the destination does not resolve, all of memory. -/
def Obligations.InputFrame : Prop :=
  ∀ (dst : Operand) (s t : State), exec (.input dst) s = .next t →
    t.rb = s.rb ∧ t.outputQueue = s.outputQueue ∧
    (t.inputQueue = s.inputQueue ∨ ∃ v, s.inputQueue = v :: t.inputQueue) ∧
    (∀ d, adr s dst = .ok d → ∀ c, c ≠ d → t.memory.read c = s.memory.read c) ∧
    ((∀ d, adr s dst ≠ .ok d) → ∀ c, t.memory.read c = s.memory.read c)

/-- output, `42_io.md` R161: the value is appended to the output queue. Unbounded queues are the spec's decision D19 (log
entry 9), the range of `pc` D3 (log entry 4). -/
def Obligations.OutputAppendsTheValue : Prop :=
  ∀ (a : Operand) (s : State) (x : Word), val s a = .ok x → s.pc + 2 ≤ Config.int64Max →
    exec (.output a) s = .next { s with outputQueue := s.outputQueue ++ [x], pc := s.pc + 2, status := .running }

/-- jump-if-true, `43_control.md` R180: taken on a value that is not 0, to the target's value; else on at `pc + 3`. The
range of `pc` is D3 (log entry 4); that the target is resolved when not taken is D10 (log entry 6). -/
def Obligations.JumpIfTrueGoesToTheTarget : Prop :=
  ∀ (a b : Operand) (s : State) (x y : Word), val s a = .ok x → val s b = .ok y →
    (x.toInt ≠ 0 → 0 ≤ y.toInt → exec (.jumpIfTrue a b) s = .next { s with pc := y.toInt.toNat, status := .running }) ∧
    (x.toInt = 0 → s.pc + 3 ≤ Config.int64Max →
      exec (.jumpIfTrue a b) s = .next { s with pc := s.pc + 3, status := .running })

/-- jump-if-false, `43_control.md` R181: as jump-if-true with the condition inverted. The range of `pc` is D3 (log
entry 4); that the target is resolved when not taken is D10 (log entry 6). -/
def Obligations.JumpIfFalseGoesToTheTarget : Prop :=
  ∀ (a b : Operand) (s : State) (x y : Word), val s a = .ok x → val s b = .ok y →
    (x.toInt = 0 → 0 ≤ y.toInt → exec (.jumpIfFalse a b) s = .next { s with pc := y.toInt.toNat, status := .running }) ∧
    (x.toInt ≠ 0 → s.pc + 3 ≤ Config.int64Max →
      exec (.jumpIfFalse a b) s = .next { s with pc := s.pc + 3, status := .running })

/-- halt, `43_control.md` R182: the status becomes Halted and nothing else changes; the canonical word is 99 and the
mode digits are ignored; a halt word raises nothing, even at `pc = 2^63-1`; Halted is sticky whatever the memory then
holds; memory and output can still be read. -/
def Obligations.HaltStopsAndIsSticky : Prop :=
  (∀ s : State, exec .halt s = .next { s with status := .halted }) ∧
  encode .halt = [99] ∧
  (∀ s : State, s.Active → s.pc ≤ Config.int64Max → 0 ≤ (s.memory.read s.pc).toInt →
    (s.memory.read s.pc).toNat % 100 = 99 → step s = .next { s with status := .halted }) ∧
  (∀ (s : State) (m : Memory), s.status = .halted → step { s with memory := m } = .next { s with memory := m }) ∧
  (∀ (s : State) (fresh : Bool), s.status = .halted →
    (∀ a : Word, 0 ≤ a.toInt → State.perform (.memRead a) fresh s = .next (s, .cell (s.memory.read a.toNat))) ∧
    State.perform .popOutput fresh s =
      .next ({ s with outputQueue := s.outputQueue.tail }, .output s.outputQueue.head?))

/-- adjust-relative-base, `44_relative_base.md` R200: the value, read at the old `rb`, is added to `rb`. Wraparound and
the width of `rb` are the spec's decisions D2, D4 (log entry 2), the range of `pc` D3 (log entry 4). -/
def Obligations.AdjustRelativeBaseAdds : Prop :=
  ∀ (a : Operand) (s : State) (x : Word), val s a = .ok x → s.pc + 2 ≤ Config.int64Max →
    exec (.adjustRelativeBase a) s =
      .next { s with rb := wrap64 (s.rb.toInt + x.toInt), pc := s.pc + 2, status := .running }

/-- The frames of the instructions that store nothing (`42_io.md` R161, `43_control.md` R180 to R182,
`44_relative_base.md` R200): output may change the output queue, adjust-relative-base `rb`; all else but `pc` and
`status` is unchanged, every cell of memory among it. -/
def Obligations.NonStoringFrames : Prop :=
  ∀ (a b : Operand) (s t : State),
    (exec (.output a) s = .next t →
      t.rb = s.rb ∧ t.inputQueue = s.inputQueue ∧ ∀ c, t.memory.read c = s.memory.read c) ∧
    (exec (.adjustRelativeBase a) s = .next t →
      t.inputQueue = s.inputQueue ∧ t.outputQueue = s.outputQueue ∧ ∀ c, t.memory.read c = s.memory.read c) ∧
    (exec (.jumpIfTrue a b) s = .next t ∨ exec (.jumpIfFalse a b) s = .next t ∨ exec .halt s = .next t →
      t.rb = s.rb ∧ t.inputQueue = s.inputQueue ∧ t.outputQueue = s.outputQueue ∧
      ∀ c, t.memory.read c = s.memory.read c)

/-- `60_exceptions.md` R264 and the order of R270 (the spec's decisions D5, D9, D10; log entries 3, 5, 6): an
instruction with a position or relative operand whose address is outside `0 .. 2^63-1` raises `MemoryError` and changes
nothing else, the target of a jump that is not taken among them; an input only with a value in the queue. -/
def Obligations.IllegalOperandAddressIsMemoryError : Prop :=
  ∀ (i : Instr) (o : Operand) (s : State), i.wellFormed = true → o ∈ i.operands →
    ((o.mode = .position ∧ ¬ LegalAddr o.cell.toInt) ∨
      (o.mode = .relative ∧ ¬ LegalAddr (s.rb.toInt + o.cell.toInt))) →
    (∀ dst, i = .input dst → s.inputQueue ≠ []) →
    exec i s = .next { s with status := .memoryError }

/-- `60_exceptions.md` R262 (b), `40_engine.md` R119 (the spec's decisions D3, D9, D10; log entries 4, 5, 6): with every
operand resolved, a new `pc` outside `0 .. 2^63-1` raises `InvalidPC` and changes nothing else: the next instruction's
address, or the negative target of a taken jump. -/
def Obligations.NewPcOutOfRangeIsInvalidPC : Prop :=
  (∀ (i : Instr) (s : State), i.wellFormed = true → i ≠ .halt →
    (∀ o ∈ i.operands, o.mode = .immediate ∨ ∃ d, adr s o = .ok d) →
    (∀ dst, i = .input dst → s.inputQueue ≠ []) →
    (∀ a b x, i = .jumpIfTrue a b → val s a = .ok x → x.toInt = 0) →
    (∀ a b x, i = .jumpIfFalse a b → val s a = .ok x → x.toInt ≠ 0) →
    Config.int64Max < s.pc + 1 + i.arity → exec i s = .next { s with status := .invalidPC }) ∧
  (∀ (a b : Operand) (s : State) (x y : Word), val s a = .ok x → val s b = .ok y → y.toInt < 0 →
    (x.toInt ≠ 0 → exec (.jumpIfTrue a b) s = .next { s with status := .invalidPC }) ∧
    (x.toInt = 0 → exec (.jumpIfFalse a b) s = .next { s with status := .invalidPC }))

/-! ### Memory -/

/-- `20_memory.md` R51: a read gives the value most recently written to the cell, 0 if it was never written; a read
changes nothing. That the host's read at a negative address changes nothing either, the status included, is the spec's
decision D15 (log entry 21). -/
def Obligations.ReadGivesTheLastWrite : Prop :=
  (∀ (ws : List (Nat × Word)) (a : Nat),
    (ws.foldl (fun m w => Memory.write m w.1 w.2) []).read a =
      match ws.reverse.find? (fun w => w.1 == a) with
      | some w => w.2
      | none => 0) ∧
  (∀ (a : Word) (fresh : Bool) (s : State), ∃ r, State.perform (.memRead a) fresh s = .next (s, r))

/-- Two memories in the canonical form that read alike everywhere are the same data; so a state determines, and is
determined by, the total function `M` of `10_state.md` R30. The canonical form is the model's (log entry 1). -/
def Obligations.CanonicalMemoriesThatReadAlikeAreEqual : Prop :=
  ∀ m n : Memory, m.wf = true → n.wf = true → (∀ a, m.read a = n.read a) → m = n

/-- `20_memory.md` R64, R66: what an instruction with a write parameter stores, in a step of the machine, is there for the
very next fetch, whichever cell it went to, one of its own cells included: as the word at `pc`, legal or not, and as a
parameter cell; the storing step itself used the old contents. So is what `mem_write` and `patch_instruction_at` store
between steps. `Stores` is the column `E` of `40_engine.md` R117. Wrapped sums and products are the spec's decision D2
(log entry 2), the range of `pc` D3 (log entry 4), the failing direct write D15 (log entry 21), the patched word D16 (log
entry 19). -/
def Obligations.StoresAreSeenByTheNextFetch : Prop :=
  (∀ (s : State) (i : Instr) (d : Nat) (v : Word), fetchInstr s = .instr i → s.Stores i d v →
    s.pc + 1 + i.arity ≤ Config.int64Max →
    ∃ t, step s = .next t ∧ t.pc = s.pc + 1 + i.arity ∧ t.status = .running ∧ t.FetchesFrom fun c => if c = d then v else s.memory.read c) ∧
  (∀ (s : State) (a w : Word) (fresh : Bool), s.Active → 0 ≤ a.toInt →
    ∃ t, State.perform (.memWrite a w) fresh s = .next (t, .ok) ∧ t.pc = s.pc ∧ t.status = s.status ∧
      t.FetchesFrom fun c => if c = a.toNat then w else s.memory.read c) ∧
  (∀ (s : State) (a w : Word) (fresh : Bool), s.Active → 0 ≤ a.toInt →
    invertJump (s.memory.read a.toNat) = some w →
    ∃ t, State.perform (.patchInstructionAt a) fresh s = .next (t, .ok) ∧ t.pc = s.pc ∧ t.status = s.status ∧
      t.FetchesFrom fun c => if c = a.toNat then w else s.memory.read c)

/-! ### Host commands -/

/-- `45_host_commands.md` R215: `add_input` appends at the back, always succeeds, has no response and leaves the status
as it is; values added are there in the order added. -/
def Obligations.AddInputAppends : Prop :=
  (∀ (v : Word) (fresh : Bool) (s : State),
    State.perform (.addInput v) fresh s = .next ({ s with inputQueue := s.inputQueue ++ [v] }, .none)) ∧
  (∀ (vs : List Word) (s : State), (vs.foldl State.addInput s).inputQueue = s.inputQueue ++ vs ∧
    (vs.foldl State.addInput s).status = s.status)

/-- `45_host_commands.md` R218: `pop_output` returns and removes the front, or returns `None` and changes nothing. -/
def Obligations.PopOutputTakesTheFront : Prop :=
  (∀ (v : Word) (rest : List Word) (fresh : Bool) (s : State), s.outputQueue = v :: rest →
    State.perform .popOutput fresh s = .next ({ s with outputQueue := rest }, .output (some v))) ∧
  (∀ (fresh : Bool) (s : State), s.outputQueue = [] → State.perform .popOutput fresh s = .next (s, .output none))

/-- `45_host_commands.md` R216, R217, R224: the lengths of the queues and the contents of a cell, with no change of
state; a negative address is the returned error and not a status (the spec's decisions D15, D28; log entry 21). -/
def Obligations.ObservingCommandsChangeNothing : Prop :=
  ∀ (fresh : Bool) (s : State) (a : Word),
    State.perform .pendingInput fresh s = .next (s, .count s.inputQueue.length) ∧
    State.perform .pendingOutput fresh s = .next (s, .count s.outputQueue.length) ∧
    State.perform (.memRead a) fresh s =
      .next (s, if 0 ≤ a.toInt then .cell (s.memory.read a.toNat) else .memoryError)

/-- `45_host_commands.md` R225: `mem_write` writes the one cell and changes nothing else; on a negative address it
returns the error and changes nothing, the status included (the spec's decision D15, log entry 21). -/
def Obligations.MemWriteWritesOneCell : Prop :=
  ∀ (fresh : Bool) (s : State) (a v : Word),
    (0 ≤ a.toInt → ∃ m, State.perform (.memWrite a v) fresh s = .next ({ s with memory := m }, .ok) ∧
      m.read a.toNat = v ∧ ∀ c, c ≠ a.toNat → m.read c = s.memory.read c) ∧
    (a.toInt < 0 → State.perform (.memWrite a v) fresh s = .next (s, .memoryError))

/-- `45_host_commands.md` R227, which is the spec's decision D16 (log entry 19): the patched word is the jump of the
opposite condition with the same modes, and patching it again gives the word back; the command writes it to its cell;
a negative address is the returned error; a cell that is no jump word is refused. -/
def Obligations.PatchInvertsTheJump : Prop :=
  (∀ (w : Word) (h : Header), decodeWord w = .ok h →
    (h.op = .jumpIfTrue → ∃ v, invertJump w = some v ∧ decodeWord v = .ok { h with op := .jumpIfFalse } ∧
      invertJump v = some w) ∧
    (h.op = .jumpIfFalse → ∃ v, invertJump w = some v ∧ decodeWord v = .ok { h with op := .jumpIfTrue } ∧
      invertJump v = some w)) ∧
  (∀ (fresh : Bool) (s : State) (a v : Word), 0 ≤ a.toInt → invertJump (s.memory.read a.toNat) = some v →
    State.perform (.patchInstructionAt a) fresh s = .next ({ s with memory := s.memory.write a.toNat v }, .ok)) ∧
  (∀ (fresh : Bool) (s : State) (a : Word), a.toInt < 0 →
    State.perform (.patchInstructionAt a) fresh s = .next (s, .memoryError)) ∧
  (∀ (fresh : Bool) (s : State) (a : Word), 0 ≤ a.toInt →
    ((s.memory.read a.toNat).toInt < 0 ∨
      ((s.memory.read a.toNat).toNat % 100 ≠ 5 ∧ (s.memory.read a.toNat).toNat % 100 ≠ 6)) →
    State.perform (.patchInstructionAt a) fresh s = .refused .patchNotJump)

/-- `45_host_commands.md` R219, over any number of steps: the output queue only grows at the back, the input queue only
loses values at the front, and each step moves at most one value. -/
def Obligations.QueuesAreFifoOverEveryRun : Prop :=
  ∀ (k : Nat) (s t : State), Sys2Proof.core.run k s = .next t →
    ∃ outs ins : List Word, t.outputQueue = s.outputQueue ++ outs ∧ s.inputQueue = ins ++ t.inputQueue ∧
      outs.length + ins.length ≤ k

/-- `45_host_commands.md` R211: on a fresh instance `load` puts the tape into the cells `0 .. N-1`, all other cells
reading 0, and changes nothing else; on any other instance it is refused (the spec's decision D13, log entry 17). -/
def Obligations.LoadPlacesTheTape : Prop :=
  ∀ (tape : List Word) (s : State),
    (tape.length ≤ Config.int64Max + 1 → ∃ m, State.perform (.load tape) true s = .next ({ s with memory := m }, .none) ∧
      ∀ a, m.read a = tape.getD a 0) ∧
    State.perform (.load tape) false s = .refused .loadNotFresh

/-- Every command on an instance, a `run` of any length among them, keeps the invariant (`10_state.md` R22, R30;
`45_host_commands.md`). The range of `pc` is the spec's decision D3; the canonical form is the model's (log entry 1). -/
def Obligations.CommandsKeepTheInvariant : Prop :=
  ∀ (c : VmCommand) (fresh : Bool) (s t : State) (r : Reply), s.Inv → State.perform c fresh s = .next (t, r) → t.Inv

/-- The access table of `10_state.md` R35 and `45_host_commands.md` R212 (the spec's decision D24): which command may
change which component. -/
def Obligations.CommandsWriteOnlyTheirColumns : Prop :=
  ∀ (c : VmCommand) (fresh : Bool) (s t : State) (r : Reply), State.perform c fresh s = .next (t, r) →
    c ≠ .step → (∀ n, c ≠ .run n) →
    t.status = s.status ∧ t.pc = s.pc ∧ t.rb = s.rb ∧
    ((∀ v, c ≠ .addInput v) → t.inputQueue = s.inputQueue) ∧
    (c ≠ .popOutput → t.outputQueue = s.outputQueue) ∧
    ((∀ tape, c ≠ .load tape) → (∀ a v, c ≠ .memWrite a v) → (∀ a, c ≠ .patchInstructionAt a) → t.memory = s.memory)

/-- `46_snapshot_clone.md` R250: `clone` gives a new instance, under a handle no live instance has, whose state equals
the source's in every component, the status too (the spec's decision D17, log entry 22); neither the source's state nor
any other instance's is changed. The numbering of handles is the model's (log entry 15). -/
def Obligations.CloneCopiesTheWholeState : Prop :=
  ∀ (w : World) (h : Nat) (vm : Vm), w.Inv → w.find h = some vm →
    w.find w.nextHandle = none ∧
    ∃ v, w.command (.clone h) = .next (v, .handle w.nextHandle) ∧
      (v.find w.nextHandle).map Vm.state = some vm.state ∧ (v.find h).map Vm.state = some vm.state ∧
      ∀ g, g ≠ w.nextHandle → (v.find g).map Vm.state = (w.find g).map Vm.state

/-- `46_snapshot_clone.md` R251: a command on one instance, `destroy` included, leaves every other as it was; and two
instances that are equal stay equal when they receive the same command. -/
def Obligations.CommandsOnOneInstanceAreInvisibleToOthers : Prop :=
  (∀ (w v : World) (c : Command) (r : Reply) (h : Nat) (vm : Vm), w.command c = .next (v, r) → w.find h = some vm →
    (∀ vc, c ≠ .on h vc) → c ≠ .clone h → c ≠ .dump h → c ≠ .destroy h → v.find h = some vm) ∧
  (∀ (w v u : World) (c : VmCommand) (r q : Reply) (g h : Nat) (vm : Vm), g ≠ h → w.find g = some vm →
    w.find h = some vm → w.command (.on g c) = .next (v, r) → v.command (.on h c) = .next (u, q) →
    r = q ∧ u.find g = u.find h)

/-- Every command keeps the table of instances good: handles distinct and below the next one, every state meeting the
invariant (`45_host_commands.md` R210, `46_snapshot_clone.md` R250). The numbering of handles is the model's (log
entry 15), and so is the canonical memory (log entry 1); the range of `pc` is the spec's decision D3 (log entry 4). -/
def Obligations.CommandsKeepTheWorldGood : Prop :=
  ∀ (w v : World) (c : Command) (r : Reply), w.Inv → w.command c = .next (v, r) → v.Inv

/-- `45_host_commands.md` R229: `destroy` of a live handle answers, whatever the status and the queues; the instance is
gone and every other is as it was; and every command on a handle that is not live is refused. A handle given once and
not live never comes to be live again. The refusal is the spec's decision D24, the numbering of handles the model's (log
entry 15). -/
def Obligations.DestroyedHandlesAreRefused : Prop :=
  (∀ (w : World) (h : Nat) (vm : Vm), w.find h = some vm →
    ∃ v, w.command (.destroy h) = .next (v, .none) ∧ v.find h = none ∧ ∀ g, g ≠ h → v.find g = w.find g) ∧
  (∀ (w : World) (h : Nat), w.find h = none →
    (∀ c, w.command (.on h c) = .refused .noSuchInstance) ∧ w.command (.clone h) = .refused .noSuchInstance ∧
    w.command (.dump h) = .refused .noSuchInstance ∧ w.command (.destroy h) = .refused .noSuchInstance) ∧
  (∀ (w v : World) (c : Command) (r : Reply) (h : Nat), h < w.nextHandle → w.find h = none →
    w.command c = .next (v, r) → h < v.nextHandle ∧ v.find h = none)

/-- `30_encoding.md` R98 (the spec's decision D23, log entry 23): a text is read as a tape exactly where it is one or more
items of the format between commas, and then as the integers they denote; all other texts are refused. So every
tape that is not empty is what its own text is read as. With them the rule's example; blanks trimmed, both signs, both
ends of `Int64`; an empty text, an empty item, another character and the numbers next outside `Int64` refused. -/
def Obligations.ProgramTextIsReadAsATape : Prop :=
  (∀ (text : List Char) (tape : List Word), parseTape text = some tape ↔
    ∃ items : List (List Char), items ≠ [] ∧ text = List.intercalate [','] items ∧
      List.Forall₂ ItemDenotes items tape) ∧
  (∀ tape : List Word, tape ≠ [] → parseTape (renderTape tape) = some tape) ∧
  parseTape ['1', ',', '0', ',', '0', ',', '0', ',', '9', '9'] = some [1, 0, 0, 0, 99] ∧
  parseTape [' ', '-', '7', '\t', ',', '\n', '+', '4', '2', '\r', '\n'] = some [-7, 42] ∧
  parseTape ['9', '2', '2', '3', '3', '7', '2', '0', '3', '6', '8', '5', '4', '7', '7', '5', '8', '0', '7']
    = some [9223372036854775807] ∧
  parseTape ['-', '9', '2', '2', '3', '3', '7', '2', '0', '3', '6', '8', '5', '4', '7', '7', '5', '8', '0', '8']
    = some [-9223372036854775808] ∧
  parseTape [] = none ∧ parseTape ['1', ',', ',', '2'] = none ∧ parseTape ['1', 'x'] = none ∧
  parseTape ['9', '2', '2', '3', '3', '7', '2', '0', '3', '6', '8', '5', '4', '7', '7', '5', '8', '0', '8'] = none ∧
  parseTape ['-', '9', '2', '2', '3', '3', '7', '2', '0', '3', '6', '8', '5', '4', '7', '7', '5', '8', '0', '9'] = none

/-- `45_host_commands.md` R210: `create` answers a handle that no live instance has, under which stands a fresh instance
in the reset state; every other instance is as it was. The reset values of `pc`, `rb` and the queues are the spec's
decision D12 (log entry 10), freshness D13 (log entry 17), the numbering of handles the model's (log entry 15). -/
def Obligations.CreateMakesANewResetInstance : Prop :=
  ∀ w : World, w.Inv →
    w.find w.nextHandle = none ∧
    ∃ v, w.command .create = .next (v, .handle w.nextHandle) ∧
      v.find w.nextHandle = some ⟨State.reset, true⟩ ∧ ∀ h, h ≠ w.nextHandle → v.find h = w.find h

/-- `45_host_commands.md` R228: `dump` of a live handle answers a text, and every instance is live after it as before,
with the state it had. The text is a free value (log entry 20). -/
def Obligations.DumpChangesNoState : Prop :=
  ∀ (w : World) (h : Nat) (vm : Vm), w.find h = some vm →
    ∃ v, w.command (.dump h) = .next (v, .text (Config.dumpText w.draws)) ∧
      ∀ g, (v.find g).map Vm.state = (w.find g).map Vm.state
end

