-- ==== Sys2Proof/Laws/Memory.lean ====
section
/-! SUPPORT. Reading after writing, and that every memory operation keeps the canonical form. -/

namespace Sys2Proof.Machine

/-! ### Reads -/

@[simp] theorem Memory.read_nil (a : Nat) : Memory.read [] a = 0 := rfl

theorem Memory.read_eq_zero {m : Memory} {a : Nat} (h : ∀ c ∈ m, c.1 ≠ a) : m.read a = 0 := by
  induction m with
  | nil => rfl
  | cons c m ih =>
    simp only [Memory.read]
    rw [if_neg (h c (by simp))]
    exact ih fun d hd => h d (by simp [hd])

theorem Memory.read_insert (m : Memory) (a b : Nat) (v : Word) (h : ∀ c ∈ m, c.1 ≠ a) :
    (Memory.insert a v m).read b = if a = b then v else m.read b := by
  induction m with
  | nil => rfl
  | cons c m ih =>
    have hne : c.1 ≠ a := h c (by simp)
    simp only [Memory.insert]
    split
    · rfl
    · simp only [Memory.read, ih fun d hd => h d (by simp [hd])]
      by_cases hb : c.1 = b
      · have : a ≠ b := fun e => hne (by omega)
        simp [hb, this]
      · simp [hb]

theorem Memory.read_erase (m : Memory) (a b : Nat) : (m.erase a).read b = if a = b then 0 else m.read b := by
  induction m with
  | nil => simp [Memory.erase]
  | cons c m ih =>
    simp only [Memory.erase] at ih
    simp only [Memory.erase, List.filter_cons, Memory.read]
    by_cases hc : c.1 = a
    · simp only [hc, ne_eq, not_true, decide_false, Bool.false_eq_true, if_false, ih]
      split <;> rfl
    · simp only [ne_eq, hc, not_false_eq_true, decide_true, if_true, Memory.read, ih]
      by_cases hb : c.1 = b
      · have : a ≠ b := fun e => hc (by omega)
        simp [hb, this]
      · simp [hb]

theorem Memory.erase_ne {m : Memory} {a : Nat} : ∀ c ∈ m.erase a, c.1 ≠ a := by
  intro c hc
  simpa using (List.mem_filter.mp hc).2

/-- The one law of memory: a cell written reads as written, every other as before. -/
theorem Memory.read_write (m : Memory) (a b : Nat) (v : Word) :
    (m.write a v).read b = if a = b then v else m.read b := by
  unfold Memory.write
  split
  · next h => simp [Memory.read_erase, h]
  · rw [Memory.read_insert _ _ _ _ Memory.erase_ne, Memory.read_erase]
    split <;> rfl

@[simp] theorem Memory.read_write_self (m : Memory) (a : Nat) (v : Word) : (m.write a v).read a = v := by
  simp [Memory.read_write]

theorem Memory.read_write_ne (m : Memory) {a b : Nat} (v : Word) (h : b ≠ a) : (m.write a v).read b = m.read b := by
  simp [Memory.read_write, h.symm]

/-! ### The canonical form -/

@[simp] theorem Memory.wf_nil : Memory.wf [] = true := rfl

theorem Memory.wf_cons {a : Nat} {v : Word} {m : Memory} :
    Memory.wf ((a, v) :: m) = true ↔ a ≤ Config.int64Max ∧ v ≠ 0 ∧ (∀ c ∈ m, a < c.1) ∧ m.wf = true := by
  simp [Memory.wf, and_assoc]

theorem Memory.wf_filter {m : Memory} (p : Nat × Word → Bool) (h : m.wf = true) : Memory.wf (m.filter p) = true := by
  induction m with
  | nil => rfl
  | cons c m ih =>
    obtain ⟨h1, h2, h3, h4⟩ := Memory.wf_cons.mp h
    rw [List.filter_cons]
    split
    · exact Memory.wf_cons.mpr ⟨h1, h2, fun d hd => h3 d (List.mem_of_mem_filter hd), ih h4⟩
    · exact ih h4

theorem Memory.wf_erase {m : Memory} (a : Nat) (h : m.wf = true) : (m.erase a).wf = true := Memory.wf_filter _ h

theorem Memory.mem_insert {m : Memory} {a : Nat} {v : Word} {c : Nat × Word} (h : c ∈ Memory.insert a v m) :
    c = (a, v) ∨ c ∈ m := by
  induction m with
  | nil => simpa [Memory.insert] using h
  | cons d m ih =>
    simp only [Memory.insert] at h
    split at h
    · simpa using h
    · rcases List.mem_cons.mp h with h | h
      · exact .inr (by simp [h])
      · rcases ih h with h | h
        · exact .inl h
        · exact .inr (by simp [h])

theorem Memory.wf_insert {m : Memory} {a : Nat} {v : Word} (hm : m.wf = true) (ha : a ≤ Config.int64Max) (hv : v ≠ 0)
    (hne : ∀ c ∈ m, c.1 ≠ a) : (Memory.insert a v m).wf = true := by
  induction m with
  | nil => exact Memory.wf_cons.mpr ⟨ha, hv, by simp, rfl⟩
  | cons c m ih =>
    obtain ⟨h1, h2, h3, h4⟩ := Memory.wf_cons.mp hm
    have hca : c.1 ≠ a := hne c (by simp)
    simp only [Memory.insert]
    split
    · next hlt =>
      refine Memory.wf_cons.mpr ⟨ha, hv, fun d hd => ?_, hm⟩
      rcases List.mem_cons.mp hd with rfl | hd
      · exact hlt
      · exact Nat.lt_trans hlt (h3 d hd)
    · refine Memory.wf_cons.mpr ⟨h1, h2, fun d hd => ?_, ih h4 fun d hd => hne d (by simp [hd])⟩
      rcases Memory.mem_insert hd with rfl | hd
      · simp only; omega
      · exact h3 d hd

/-- A write at a legal address keeps the canonical form. -/
theorem Memory.wf_write {m : Memory} {a : Nat} (v : Word) (hm : m.wf = true) (ha : a ≤ Config.int64Max) :
    (m.write a v).wf = true := by
  unfold Memory.write
  split
  · exact Memory.wf_erase a hm
  · next hv => exact Memory.wf_insert (Memory.wf_erase a hm) ha hv Memory.erase_ne

/-- Successive writes that stay inside the address space keep the canonical form. -/
theorem Memory.wf_writeFrom {m : Memory} {a : Nat} (vs : List Word) (hm : m.wf = true)
    (h : a + vs.length ≤ Config.int64Max + 1) : (Memory.writeFrom m a vs).wf = true := by
  induction vs generalizing m a with
  | nil => exact hm
  | cons v vs ih =>
    simp only [List.length_cons] at h
    exact ih (Memory.wf_write v hm (by omega)) (by omega)

/-- Laying out an instruction keeps the canonical form. -/
theorem layCells_wf {m : Memory} {a : Nat} (vs : List Word) (hm : m.wf = true) : (layCells m a vs).wf = true := by
  induction vs generalizing m a with
  | nil => exact hm
  | cons v vs ih =>
    simp only [layCells]
    split
    · next h => exact ih (Memory.wf_write v hm h)
    · exact ih hm

/-- The memory after reset has the canonical form. -/
theorem State.reset_memory_wf : State.reset.memory.wf = true := rfl

end Sys2Proof.Machine
end

