-- ==== Sys2Proof/Laws/State.lean ====
section
/-! SUPPORT. What each named update does to each field of the state: one lemma per field and update. -/

namespace Sys2Proof.Machine

@[simp] theorem State.raise_memory (s : State) (c : Condition) : (s.raise c).memory = s.memory := rfl
@[simp] theorem State.raise_pc (s : State) (c : Condition) : (s.raise c).pc = s.pc := rfl
@[simp] theorem State.raise_rb (s : State) (c : Condition) : (s.raise c).rb = s.rb := rfl
@[simp] theorem State.raise_inputQueue (s : State) (c : Condition) : (s.raise c).inputQueue = s.inputQueue := rfl
@[simp] theorem State.raise_outputQueue (s : State) (c : Condition) : (s.raise c).outputQueue = s.outputQueue := rfl
@[simp] theorem State.raise_status (s : State) (c : Condition) : (s.raise c).status = c.status := rfl

@[simp] theorem State.store_memory (s : State) (a : Nat) (v : Word) : (s.store a v).memory = s.memory.write a v := rfl
@[simp] theorem State.store_pc (s : State) (a : Nat) (v : Word) : (s.store a v).pc = s.pc := rfl
@[simp] theorem State.store_rb (s : State) (a : Nat) (v : Word) : (s.store a v).rb = s.rb := rfl
@[simp] theorem State.store_inputQueue (s : State) (a : Nat) (v : Word) : (s.store a v).inputQueue = s.inputQueue := rfl
@[simp] theorem State.store_outputQueue (s : State) (a : Nat) (v : Word) : (s.store a v).outputQueue = s.outputQueue := rfl
@[simp] theorem State.store_status (s : State) (a : Nat) (v : Word) : (s.store a v).status = s.status := rfl

@[simp] theorem State.setInputQueue_memory (s : State) (q : List Word) : (s.setInputQueue q).memory = s.memory := rfl
@[simp] theorem State.setInputQueue_pc (s : State) (q : List Word) : (s.setInputQueue q).pc = s.pc := rfl
@[simp] theorem State.setInputQueue_rb (s : State) (q : List Word) : (s.setInputQueue q).rb = s.rb := rfl
@[simp] theorem State.setInputQueue_inputQueue (s : State) (q : List Word) : (s.setInputQueue q).inputQueue = q := rfl
@[simp] theorem State.setInputQueue_outputQueue (s : State) (q : List Word) : (s.setInputQueue q).outputQueue = s.outputQueue := rfl
@[simp] theorem State.setInputQueue_status (s : State) (q : List Word) : (s.setInputQueue q).status = s.status := rfl

@[simp] theorem State.pushOutput_memory (s : State) (v : Word) : (s.pushOutput v).memory = s.memory := rfl
@[simp] theorem State.pushOutput_pc (s : State) (v : Word) : (s.pushOutput v).pc = s.pc := rfl
@[simp] theorem State.pushOutput_rb (s : State) (v : Word) : (s.pushOutput v).rb = s.rb := rfl
@[simp] theorem State.pushOutput_inputQueue (s : State) (v : Word) : (s.pushOutput v).inputQueue = s.inputQueue := rfl
@[simp] theorem State.pushOutput_outputQueue (s : State) (v : Word) : (s.pushOutput v).outputQueue = s.outputQueue ++ [v] := rfl
@[simp] theorem State.pushOutput_status (s : State) (v : Word) : (s.pushOutput v).status = s.status := rfl

@[simp] theorem State.setRb_memory (s : State) (v : Word) : (s.setRb v).memory = s.memory := rfl
@[simp] theorem State.setRb_pc (s : State) (v : Word) : (s.setRb v).pc = s.pc := rfl
@[simp] theorem State.setRb_rb (s : State) (v : Word) : (s.setRb v).rb = v := rfl
@[simp] theorem State.setRb_inputQueue (s : State) (v : Word) : (s.setRb v).inputQueue = s.inputQueue := rfl
@[simp] theorem State.setRb_outputQueue (s : State) (v : Word) : (s.setRb v).outputQueue = s.outputQueue := rfl
@[simp] theorem State.setRb_status (s : State) (v : Word) : (s.setRb v).status = s.status := rfl

@[simp] theorem State.advance_memory (s : State) (npc : Nat) : (s.advance npc).memory = s.memory := rfl
@[simp] theorem State.advance_pc (s : State) (npc : Nat) : (s.advance npc).pc = npc := rfl
@[simp] theorem State.advance_rb (s : State) (npc : Nat) : (s.advance npc).rb = s.rb := rfl
@[simp] theorem State.advance_inputQueue (s : State) (npc : Nat) : (s.advance npc).inputQueue = s.inputQueue := rfl
@[simp] theorem State.advance_outputQueue (s : State) (npc : Nat) : (s.advance npc).outputQueue = s.outputQueue := rfl
@[simp] theorem State.advance_status (s : State) (npc : Nat) : (s.advance npc).status = .running := rfl

@[simp] theorem State.halt_memory (s : State) : (s.halt).memory = s.memory := rfl
@[simp] theorem State.halt_pc (s : State) : (s.halt).pc = s.pc := rfl
@[simp] theorem State.halt_rb (s : State) : (s.halt).rb = s.rb := rfl
@[simp] theorem State.halt_inputQueue (s : State) : (s.halt).inputQueue = s.inputQueue := rfl
@[simp] theorem State.halt_outputQueue (s : State) : (s.halt).outputQueue = s.outputQueue := rfl
@[simp] theorem State.halt_status (s : State) : (s.halt).status = .halted := rfl

@[simp] theorem State.load_memory (s : State) (tape : List Word) : (s.load tape).memory = Memory.writeFrom [] 0 tape := rfl
@[simp] theorem State.load_pc (s : State) (tape : List Word) : (s.load tape).pc = s.pc := rfl
@[simp] theorem State.load_rb (s : State) (tape : List Word) : (s.load tape).rb = s.rb := rfl
@[simp] theorem State.load_inputQueue (s : State) (tape : List Word) : (s.load tape).inputQueue = s.inputQueue := rfl
@[simp] theorem State.load_outputQueue (s : State) (tape : List Word) : (s.load tape).outputQueue = s.outputQueue := rfl
@[simp] theorem State.load_status (s : State) (tape : List Word) : (s.load tape).status = s.status := rfl

@[simp] theorem State.addInput_memory (s : State) (v : Word) : (s.addInput v).memory = s.memory := rfl
@[simp] theorem State.addInput_pc (s : State) (v : Word) : (s.addInput v).pc = s.pc := rfl
@[simp] theorem State.addInput_rb (s : State) (v : Word) : (s.addInput v).rb = s.rb := rfl
@[simp] theorem State.addInput_inputQueue (s : State) (v : Word) : (s.addInput v).inputQueue = s.inputQueue ++ [v] := rfl
@[simp] theorem State.addInput_outputQueue (s : State) (v : Word) : (s.addInput v).outputQueue = s.outputQueue := rfl
@[simp] theorem State.addInput_status (s : State) (v : Word) : (s.addInput v).status = s.status := rfl

end Sys2Proof.Machine
end

