-- ==== Sys2Proof/Laws/Ops.lean ====
section
/-! SUPPORT. For each shared operation of a step, everything it can do, said once. -/

namespace Sys2Proof.Machine

/-! ### Addresses and operands -/

/-- A legal address, as a natural number, is in range. -/
theorem LegalAddr.toNat_le {z : Int} (h : LegalAddr z) : z.toNat ≤ Config.int64Max := by
  have := h.2
  omega

theorem legalAddr_natCast {n : Nat} : LegalAddr (n : Int) ↔ n ≤ Config.int64Max := by
  unfold LegalAddr
  omega

/-- A non-negative cell is a legal address, and its signed and unsigned values agree. -/
theorem legalAddr_word {w : Word} (h : 0 ≤ w.toInt) : LegalAddr w.toInt ∧ w.toInt.toNat = w.toNat := by
  have h1 := BitVec.toInt_lt (x := w)
  have h2 := BitVec.toInt_eq_toNat_cond w
  constructor
  · exact ⟨h, by simpa using Int.le_of_lt_add_one h1⟩
  · split at h2 <;> omega

theorem toAddr_ok_iff {z : Int} {a : Nat} : toAddr z = .ok a ↔ LegalAddr z ∧ a = z.toNat := by
  unfold toAddr
  split
  · next h => exact ⟨fun e => ⟨h, (Except.ok.inj e).symm⟩, fun e => congrArg _ e.2.symm⟩
  · next h => exact ⟨(nomatch ·), fun e => absurd e.1 h⟩

theorem toAddr_error_iff {z : Int} {c : Condition} : toAddr z = .error c ↔ ¬ LegalAddr z ∧ c = .memoryError := by
  unfold toAddr
  split
  · next h => exact ⟨(nomatch ·), fun e => absurd h e.1⟩
  · next h => exact ⟨fun e => ⟨h, (Except.error.inj e).symm⟩, fun e => congrArg _ e.2.symm⟩

/-- An address that resolves is a legal cell address. -/
theorem adr_le {s : State} {o : Operand} {a : Nat} (h : adr s o = .ok a) : a ≤ Config.int64Max := by
  unfold adr at h
  cases hm : o.mode <;> rw [hm] at h
  case immediate => cases h
  all_goals
    obtain ⟨⟨h1, h2⟩, rfl⟩ := toAddr_ok_iff.mp h
    omega

/-- The only condition a writable operand's address raises is `MemoryError`. -/
theorem adr_error {s : State} {o : Operand} {c : Condition} (hw : o.writable = true) (h : adr s o = .error c) :
    c = .memoryError := by
  unfold adr at h
  unfold Operand.writable at hw
  cases hm : o.mode <;> rw [hm] at h hw
  case immediate => cases hw
  all_goals exact (toAddr_error_iff.mp h).2

/-- The only condition a read parameter raises is `MemoryError`. -/
theorem val_error {s : State} {o : Operand} {c : Condition} (h : val s o = .error c) : c = .memoryError := by
  unfold val readAt adr at h
  cases hm : o.mode <;> rw [hm] at h
  case immediate => cases h
  all_goals
    dsimp only at h
    split at h
    · cases h
    · next hc =>
      cases h
      exact (toAddr_error_iff.mp hc).2

/-- A computed address resolves or is `MemoryError`. -/
theorem toAddr_cases (z : Int) : toAddr z = .error .memoryError ∨ ∃ a, toAddr z = .ok a := by
  by_cases h : LegalAddr z
  · exact .inr ⟨_, if_pos h⟩
  · exact .inl (if_neg h)

/-- The address of a writable operand resolves or is `MemoryError`. -/
theorem adr_cases {s : State} {o : Operand} (hw : o.writable = true) :
    adr s o = .error .memoryError ∨ ∃ a, adr s o = .ok a := by
  cases h : adr s o with
  | ok a => exact .inr ⟨a, rfl⟩
  | error c => exact .inl (congrArg _ (adr_error hw h))

/-- A read parameter has a value, and no illegal address, or it is `MemoryError`, for its address is illegal. -/
theorem val_cases (s : State) (o : Operand) :
    (val s o = .error .memoryError ∧ adr s o = .error .memoryError) ∨
    ((∃ x, val s o = .ok x) ∧ adr s o ≠ .error .memoryError) := by
  unfold val adr
  cases o.mode
  · rcases toAddr_cases o.cell.toInt with h | ⟨a, h⟩ <;> simp [h, readAt]
  · simp
  · rcases toAddr_cases (s.rb.toInt + o.cell.toInt) with h | ⟨a, h⟩ <;> simp [h, readAt]

/-! ### Raising and committing -/

@[simp] theorem orRaise_ok {α : Type} (s : State) (v : α) (k : α → Host.Outcome State Fault Refusal) :
    orRaise s (.ok v) k = k v := rfl

@[simp] theorem orRaise_error {α : Type} (s : State) (c : Condition) (k : α → Host.Outcome State Fault Refusal) :
    orRaise s (.error c) k = .next (s.raise c) := rfl

/-- What going on with a resolved operand can end in. -/
theorem orRaise_next {α : Type} {s t : State} {r : Except Condition α} {k : α → Host.Outcome State Fault Refusal}
    (h : orRaise s r k = .next t) : (∃ v, r = .ok v ∧ k v = .next t) ∨ (∃ c, r = .error c ∧ t = s.raise c) := by
  cases r with
  | ok v => exact .inl ⟨v, rfl, h⟩
  | error c =>
    cases h
    exact .inr ⟨c, rfl, rfl⟩

theorem commit_of_legal {s t : State} {npc : Int} (h : LegalAddr npc) :
    commit s npc t = .next (t.advance npc.toNat) := if_pos h

theorem commit_of_not_legal {s t : State} {npc : Int} (h : ¬ LegalAddr npc) :
    commit s npc t = .next (s.raise .invalidPC) := if_neg h

/-- Falling through to the next instruction, `k` cells on, inside the address space. -/
theorem commit_of_next {s t : State} {k : Nat} (h : s.pc + k ≤ Config.int64Max) :
    commit s ((s.pc : Int) + k) t = .next (t.advance (s.pc + k)) := by
  have hl : LegalAddr ((s.pc : Int) + k) := by
    unfold LegalAddr
    omega
  have hk : ((s.pc : Int) + k).toNat = s.pc + k := by omega
  rw [commit_of_legal hl, hk]

/-- What the end of a step can be: the commit, or `InvalidPC` with nothing done. -/
theorem commit_next {s t u : State} {npc : Int} (h : commit s npc t = .next u) :
    (LegalAddr npc ∧ u = t.advance npc.toNat) ∨ (¬ LegalAddr npc ∧ u = s.raise .invalidPC) := by
  unfold commit at h
  split at h
  · next hl =>
    cases h
    exact .inl ⟨hl, rfl⟩
  · next hl =>
    cases h
    exact .inr ⟨hl, rfl⟩

end Sys2Proof.Machine
end

