-- ==== Sys2Proof/Laws/Meanings.lean ====
section
/-! SUPPORT. What each family's step can end in: a raised condition with nothing else changed, or its commit. -/

namespace Sys2Proof.Machine

/-- The three-parameter instructions. -/
theorem aluStep_next {f : Word → Word → Word} {a b dst : Operand} {s t : State} (h : aluStep f a b dst s = .next t) :
    (∃ c, t = s.raise c) ∨
    (∃ d x y, adr s dst = .ok d ∧ val s a = .ok x ∧ val s b = .ok y ∧ LegalAddr ((s.pc : Int) + 4) ∧
      t = (s.store d (f x y)).advance ((s.pc : Int) + 4).toNat) := by
  rcases orRaise_next h with ⟨d, hd, h⟩ | ⟨c, -, rfl⟩
  · rcases orRaise_next h with ⟨x, hx, h⟩ | ⟨c, -, rfl⟩
    · rcases orRaise_next h with ⟨y, hy, h⟩ | ⟨c, -, rfl⟩
      · rcases commit_next h with ⟨hl, rfl⟩ | ⟨-, rfl⟩
        · exact .inr ⟨d, x, y, hd, hx, hy, hl, rfl⟩
        · exact .inl ⟨_, rfl⟩
      · exact .inl ⟨c, rfl⟩
    · exact .inl ⟨c, rfl⟩
  · exact .inl ⟨c, rfl⟩

/-- With every operand resolved and the next instruction in range, a three-parameter instruction completes. -/
theorem aluStep_completes {f : Word → Word → Word} {a b dst : Operand} {s : State} {d : Nat} {x y : Word}
    (hd : adr s dst = .ok d) (hx : val s a = .ok x) (hy : val s b = .ok y) (hp : s.pc + 4 ≤ Config.int64Max) :
    aluStep f a b dst s = .next ((s.store d (f x y)).advance (s.pc + 4)) := by
  simp only [aluStep, hd, hx, hy, orRaise_ok]
  exact commit_of_next hp

/-- input. -/
theorem execInput_next {dst : Operand} {s t : State} (h : execInput dst s = .next t) :
    (∃ c, t = s.raise c) ∨
    (∃ v rest d, s.inputQueue = v :: rest ∧ adr s dst = .ok d ∧ LegalAddr ((s.pc : Int) + 2) ∧
      t = ((s.setInputQueue rest).store d v).advance ((s.pc : Int) + 2).toNat) := by
  unfold execInput at h
  split at h
  · split at h
    · cases h
      exact .inl ⟨_, rfl⟩
    · next v rest hq =>
      rcases orRaise_next h with ⟨d, hd, h⟩ | ⟨c, -, rfl⟩
      · rcases commit_next h with ⟨hl, rfl⟩ | ⟨-, rfl⟩
        · exact .inr ⟨v, rest, d, hq, hd, hl, rfl⟩
        · exact .inl ⟨_, rfl⟩
      · exact .inl ⟨c, rfl⟩
  · cases h
    exact .inl ⟨_, rfl⟩

/-- output. -/
theorem execOutput_next {a : Operand} {s t : State} (h : execOutput a s = .next t) :
    (∃ c, t = s.raise c) ∨
    (∃ x, val s a = .ok x ∧ LegalAddr ((s.pc : Int) + 2) ∧
      t = (s.pushOutput x).advance ((s.pc : Int) + 2).toNat) := by
  rcases orRaise_next h with ⟨x, hx, h⟩ | ⟨c, -, rfl⟩
  · rcases commit_next h with ⟨hl, rfl⟩ | ⟨-, rfl⟩
    · exact .inr ⟨x, hx, hl, rfl⟩
    · exact .inl ⟨_, rfl⟩
  · exact .inl ⟨c, rfl⟩

/-- The two jumps. -/
theorem jumpStep_next {taken : Bool → Bool} {a b : Operand} {s t : State} (h : jumpStep taken a b s = .next t) :
    (∃ c, t = s.raise c) ∨
    (∃ x y, val s a = .ok x ∧ val s b = .ok y ∧
      LegalAddr (if taken (isZero x) then y.toInt else (s.pc : Int) + 3) ∧
      t = s.advance (if taken (isZero x) then y.toInt else (s.pc : Int) + 3).toNat) := by
  rcases orRaise_next h with ⟨x, hx, h⟩ | ⟨c, -, rfl⟩
  · rcases orRaise_next h with ⟨y, hy, h⟩ | ⟨c, -, rfl⟩
    · rcases commit_next h with ⟨hl, rfl⟩ | ⟨-, rfl⟩
      · exact .inr ⟨x, y, hx, hy, hl, rfl⟩
      · exact .inl ⟨_, rfl⟩
    · exact .inl ⟨c, rfl⟩
  · exact .inl ⟨c, rfl⟩

/-- adjust-relative-base. -/
theorem execAdjustRelativeBase_next {a : Operand} {s t : State} (h : execAdjustRelativeBase a s = .next t) :
    (∃ c, t = s.raise c) ∨
    (∃ x, val s a = .ok x ∧ LegalAddr ((s.pc : Int) + 2) ∧
      t = (s.setRb (wrap64 (s.rb.toInt + x.toInt))).advance ((s.pc : Int) + 2).toNat) := by
  rcases orRaise_next h with ⟨x, hx, h⟩ | ⟨c, -, rfl⟩
  · rcases commit_next h with ⟨hl, rfl⟩ | ⟨-, rfl⟩
    · exact .inr ⟨x, hx, hl, rfl⟩
    · exact .inl ⟨_, rfl⟩
  · exact .inl ⟨c, rfl⟩

/-- Going on with a resolved operand never stops the machine. -/
theorem orRaise_answers {α : Type} {s : State} {r : Except Condition α} {k : α → Host.Outcome State Fault Refusal}
    (h : ∀ v, ∃ t, k v = .next t) : ∃ t, orRaise s r k = .next t := by
  cases r with
  | ok v => exact h v
  | error c => exact ⟨_, rfl⟩

/-- Ending a step never stops the machine. -/
theorem commit_answers (s t : State) (npc : Int) : ∃ u, commit s npc t = .next u := by
  unfold commit
  split <;> exact ⟨_, rfl⟩

end Sys2Proof.Machine
end

