-- ==== Sys2Proof/Laws/Step.lean ====
section
/-! SUPPORT. What fetching can find and what a step can do, each said once. -/

namespace Sys2Proof.Machine

/-- What the fetch finds, and when. -/
theorem fetchInstr_cases (s : State) :
    (s.status.terminal = true ∧ fetchInstr s = .stopped) ∨
    (s.status.terminal = false ∧
      ((∃ e, decodeWord (s.memory.read s.pc) = .error e ∧ fetchInstr s = .raised .decodeError) ∨
       (∃ h, decodeWord (s.memory.read s.pc) = .ok h ∧ s.pc + h.op.arity > Config.int64Max ∧
         fetchInstr s = .raised .invalidPC) ∨
       (∃ h, decodeWord (s.memory.read s.pc) = .ok h ∧ s.pc + h.op.arity ≤ Config.int64Max ∧
         fetchInstr s =
           .instr (h.instr (s.memory.read (s.pc + 1)) (s.memory.read (s.pc + 2)) (s.memory.read (s.pc + 3)))))) := by
  unfold fetchInstr
  cases ht : s.status.terminal with
  | true => exact .inl ⟨rfl, rfl⟩
  | false =>
    refine .inr ⟨rfl, ?_⟩
    cases hd : decodeWord (s.memory.read s.pc) with
    | error e => exact .inl ⟨e, rfl, rfl⟩
    | ok h =>
      by_cases hp : s.pc + h.op.arity > Config.int64Max
      · exact .inr (.inl ⟨h, rfl, hp, by simp only [Bool.false_eq_true, if_false, if_pos hp]⟩)
      · exact .inr (.inr ⟨h, rfl, Nat.le_of_not_lt hp, by simp only [Bool.false_eq_true, if_false, if_neg hp]⟩)

theorem step_of_stopped {s : State} (h : fetchInstr s = .stopped) : step s = .next s := by
  simp only [step, h]

theorem step_of_raised {s : State} {c : Condition} (h : fetchInstr s = .raised c) : step s = .next (s.raise c) := by
  simp only [step, h]

theorem step_of_instr {s : State} {i : Instr} (h : fetchInstr s = .instr i) : step s = exec i s := by
  simp only [step, h]

/-- What a step can do: nothing on a terminal status, raise a condition in the fetch, or execute an instruction. -/
theorem step_cases {s t : State} (h : step s = .next t) :
    (fetchInstr s = .stopped ∧ t = s) ∨ (∃ c, fetchInstr s = .raised c ∧ t = s.raise c) ∨
    (∃ i, fetchInstr s = .instr i ∧ exec i s = .next t) := by
  cases hf : fetchInstr s with
  | stopped =>
    rw [step_of_stopped hf] at h
    cases h
    exact .inl ⟨rfl, rfl⟩
  | raised c =>
    rw [step_of_raised hf] at h
    cases h
    exact .inr (.inl ⟨c, rfl, rfl⟩)
  | instr i => exact .inr (.inr ⟨i, rfl, step_of_instr hf ▸ h⟩)

/-- An active state fetches from its memory, whatever that is known to read as. -/
theorem State.fetchesFrom_of_read {t : State} {cell : Nat → Word} (ha : t.Active) (hc : ∀ c, t.memory.read c = cell c) :
    t.FetchesFrom cell := by
  refine ⟨hc, fun e he => ?_, fun h he hp => ?_, fun h he hp => ?_⟩ <;> rw [← hc] at he
  · apply step_of_raised
    simp only [fetchInstr, ha, he]
    rfl
  · apply step_of_raised
    simp only [fetchInstr, ha, he, Bool.false_eq_true, if_false]
    exact if_pos hp
  · have hf : fetchInstr t = .instr (h.instr (cell (t.pc + 1)) (cell (t.pc + 2)) (cell (t.pc + 3))) := by
      simp only [fetchInstr, ha, he, ← hc, Bool.false_eq_true, if_false]
      exact if_neg (Nat.not_lt.mpr hp)
    exact ⟨hf, step_of_instr hf⟩

end Sys2Proof.Machine
end

