-- ==== Sys2Proof/Laws/Run.lean ====
section
/-! SUPPORT. Runs of many steps, unfolded by one step: of the host's `Core.run` and of the `run` command. -/

namespace Sys2Proof.Machine

theorem core_run_zero (s : State) : Sys2Proof.core.run 0 s = .next s := rfl

theorem core_run_succ {s t : State} (k : Nat) (h : step s = .next t) :
    Sys2Proof.core.run (k + 1) s = Sys2Proof.core.run k t := by
  have hc : Sys2Proof.core.step s = .next t := h
  simp only [Host.Core.run, hc]

/-- The first step of a run that ends in a state. -/
theorem core_run_next {s u : State} {k : Nat} (h : Sys2Proof.core.run (k + 1) s = .next u) :
    ∃ t, step s = .next t ∧ Sys2Proof.core.run k t = .next u := by
  simp only [Host.Core.run] at h
  split at h
  · next t ht => exact ⟨t, ht, h⟩
  · cases h
  · cases h

/-- A `run` that returns: its first step, and the rest of it if that step left Running. -/
theorem State.run_some {fuel : Nat} {s u : State} (h : State.run (fuel + 1) s = some u) :
    ∃ t, step s = .next t ∧ ((t.status = .running ∧ State.run fuel t = some u) ∨ (t.status ≠ .running ∧ u = t)) := by
  simp only [State.run] at h
  split at h
  · next t ht =>
    refine ⟨t, ht, ?_⟩
    split at h
    · next hr => exact .inl ⟨hr, h⟩
    · next hr =>
      cases h
      exact .inr ⟨hr, rfl⟩
  · cases h
  · cases h

end Sys2Proof.Machine
end

