-- ==== Sys2Proof/Laws/Instances.lean ====
section
/-! SUPPORT. Looking up an instance after the table of instances was changed, and what a command on one can do. -/

namespace Sys2Proof.Machine

theorem lookupVm_append (l m : List (Nat × Vm)) (h : Nat) :
    lookupVm (l ++ m) h = (lookupVm l h).or (lookupVm m h) := by
  induction l with
  | nil => simp [lookupVm]
  | cons e l ih =>
    simp only [List.cons_append, lookupVm, ih]
    split <;> simp

theorem lookupVm_mem {l : List (Nat × Vm)} {h : Nat} {vm : Vm} (hl : lookupVm l h = some vm) : (h, vm) ∈ l := by
  induction l with
  | nil => cases hl
  | cons e l ih =>
    simp only [lookupVm] at hl
    split at hl
    · next he =>
      cases hl
      simp [← he]
    · exact List.mem_cons_of_mem _ (ih hl)

/-- In a good table no instance stands under a handle not yet given. -/
theorem World.find_of_nextHandle_le {w : World} (hw : w.Inv) {g : Nat} (hg : w.nextHandle ≤ g) : w.find g = none := by
  cases h : w.find g with
  | none => rfl
  | some vm => exact absurd hg (Nat.not_le.mpr (hw.2 _ (lookupVm_mem h)).1)

theorem World.find_put (w : World) (g h : Nat) (vm : Vm) :
    (w.put g vm).find h = if g = h then (w.find h).map (fun _ => vm) else w.find h := by
  simp only [World.find, World.put]
  induction w.live with
  | nil => simp [lookupVm]
  | cons e l ih =>
    simp only [List.map_cons, lookupVm]
    by_cases hg : e.1 = g
    · simp only [hg, if_true, ih]
      split <;> simp_all
    · simp only [hg, if_false, ih]
      by_cases he : e.1 = h
      · have : g ≠ h := fun x => hg (by omega)
        simp [he, this]
      · simp [he]

theorem World.find_add (w : World) (h : Nat) (vm : Vm) :
    (w.add vm).find h = (w.find h).or (if w.nextHandle = h then some vm else none) := by
  simp only [World.find, World.add, lookupVm_append, lookupVm]

theorem World.find_remove (w : World) (g h : Nat) :
    (w.remove g).find h = if g = h then none else w.find h := by
  simp only [World.find, World.remove]
  induction w.live with
  | nil => simp [lookupVm]
  | cons e l ih =>
    simp only [List.filter_cons, lookupVm]
    by_cases hg : e.1 = g
    · simp only [hg, ne_eq, not_true, decide_false, Bool.false_eq_true, if_false, ih]
      split <;> rfl
    · simp only [hg, ne_eq, not_false_eq_true, decide_true, if_true, lookupVm, ih]
      by_cases he : e.1 = h
      · have : g ≠ h := fun x => hg (by omega)
        simp [he, this]
      · simp [he]

/-- A command on an instance that answers: the instance was live, and its state and response are `perform`'s. -/
theorem World.command_on_next {w v : World} {h : Nat} {c : VmCommand} {r : Reply}
    (hc : w.command (.on h c) = .next (v, r)) :
    ∃ vm t, w.find h = some vm ∧ State.perform c vm.fresh vm.state = .next (t, r) ∧ v = w.put h ⟨t, false⟩ := by
  simp only [World.command] at hc
  split at hc
  · cases hc
  · next vm hf =>
    split at hc
    · next t r' hp =>
      cases hc
      exact ⟨vm, t, hf, hp, rfl⟩
    · cases hc
    · cases hc

end Sys2Proof.Machine
end

