-- ==== Sys2Proof/Laws/PerInstr.lean ====
section
/-! SUPPORT. One statement family over the constructors of `Instr`. -/

namespace Sys2Proof.Laws

/-- The shape of an instruction's encoding (`30_encoding.md` R80, R81, R97): one word and one cell for each parameter,
as many as its operation has, and a word of at most five decimal digits. -/
def EncodeShape.Statement (i : Instr) : Prop :=
  (encode i).length = 1 + i.arity ∧ i.arity = i.opcode.arity ∧ i.word < 100000

theorem EncodeShape.digit_le (m : Mode) : m.digit ≤ 2 := by
  cases m <;> decide

theorem EncodeShape.number_le (op : Opcode) : op.number ≤ 99 := by
  cases op <;> decide

/-- The mode digits of up to three operands stay below `10^5`, the opcode field below them. -/
theorem EncodeShape.modeDigits_le : ∀ os : List Operand, os.length ≤ 3 → modeDigits 100 os ≤ 22200
  | [], _ => Nat.zero_le _
  | [a], _ => by
    have := EncodeShape.digit_le a.mode
    simp only [modeDigits]
    omega
  | [a, b], _ => by
    have := EncodeShape.digit_le a.mode
    have := EncodeShape.digit_le b.mode
    simp only [modeDigits]
    omega
  | [a, b, c], _ => by
    have := EncodeShape.digit_le a.mode
    have := EncodeShape.digit_le b.mode
    have := EncodeShape.digit_le c.mode
    simp only [modeDigits]
    omega
  | _ :: _ :: _ :: _ :: _, h => absurd h (by simp)

theorem EncodeShape.word_lt (i : Instr) (h : i.operands.length ≤ 3) : i.word < 100000 := by
  have h1 := EncodeShape.number_le i.opcode
  have h2 := EncodeShape.modeDigits_le i.operands h
  unfold Instr.word
  omega

theorem EncodeShape.add (a b dst : Operand) : EncodeShape.Statement (.add a b dst) :=
  ⟨rfl, rfl, EncodeShape.word_lt _ (Nat.le_of_ble_eq_true rfl)⟩

theorem EncodeShape.mul (a b dst : Operand) : EncodeShape.Statement (.mul a b dst) :=
  ⟨rfl, rfl, EncodeShape.word_lt _ (Nat.le_of_ble_eq_true rfl)⟩

theorem EncodeShape.input (dst : Operand) : EncodeShape.Statement (.input dst) :=
  ⟨rfl, rfl, EncodeShape.word_lt _ (Nat.le_of_ble_eq_true rfl)⟩

theorem EncodeShape.output (a : Operand) : EncodeShape.Statement (.output a) :=
  ⟨rfl, rfl, EncodeShape.word_lt _ (Nat.le_of_ble_eq_true rfl)⟩

theorem EncodeShape.jumpIfTrue (a b : Operand) : EncodeShape.Statement (.jumpIfTrue a b) :=
  ⟨rfl, rfl, EncodeShape.word_lt _ (Nat.le_of_ble_eq_true rfl)⟩

theorem EncodeShape.jumpIfFalse (a b : Operand) : EncodeShape.Statement (.jumpIfFalse a b) :=
  ⟨rfl, rfl, EncodeShape.word_lt _ (Nat.le_of_ble_eq_true rfl)⟩

theorem EncodeShape.lessThan (a b dst : Operand) : EncodeShape.Statement (.lessThan a b dst) :=
  ⟨rfl, rfl, EncodeShape.word_lt _ (Nat.le_of_ble_eq_true rfl)⟩

theorem EncodeShape.equals (a b dst : Operand) : EncodeShape.Statement (.equals a b dst) :=
  ⟨rfl, rfl, EncodeShape.word_lt _ (Nat.le_of_ble_eq_true rfl)⟩

theorem EncodeShape.adjustRelativeBase (a : Operand) : EncodeShape.Statement (.adjustRelativeBase a) :=
  ⟨rfl, rfl, EncodeShape.word_lt _ (Nat.le_of_ble_eq_true rfl)⟩

theorem EncodeShape.halt : EncodeShape.Statement .halt :=
  ⟨rfl, rfl, EncodeShape.word_lt _ (Nat.le_of_ble_eq_true rfl)⟩

end Sys2Proof.Laws
end

