-- ==== Sys2Proof/Laws/TapeText.lean ====
section
/-! SUPPORT. What each piece of the reader of program texts does, said once: trimming, splitting, digits, an item; and
that the digits written for a number denote it. -/

namespace Sys2Proof.Machine

/-! ### Numbers -/

theorem digitsFrom_eq_some {cs : List Char} {n k : Nat} :
    digitsFrom n cs = some k ↔
      (∀ c ∈ cs, '0' ≤ c ∧ c ≤ '9') ∧ k = cs.foldl (fun n c => 10 * n + (c.toNat - 48)) n := by
  induction cs generalizing n with
  | nil => simp [digitsFrom, eq_comm]
  | cons c cs ih =>
    simp only [digitsFrom]
    split
    · next h =>
      rw [ih]
      simp [h]
    · next h =>
      simp only [reduceCtorEq, List.forall_mem_cons, false_iff]
      exact fun hc => h hc.1.1

theorem parseDigits_eq_some {cs : List Char} {k : Nat} :
    parseDigits cs = some k ↔ cs ≠ [] ∧ (∀ c ∈ cs, '0' ≤ c ∧ c ≤ '9') ∧ k = digitsValue cs := by
  cases cs with
  | nil => simp [parseDigits]
  | cons c cs =>
    rw [parseDigits, digitsFrom_eq_some]
    simp [digitsValue]

/-- A signed number is read exactly where it is an optional sign and one or more digits. -/
theorem parseInt_eq_some {cs : List Char} {z : Int} :
    parseInt cs = some z ↔ ∃ sign ds, cs = sign ++ ds ∧ ds ≠ [] ∧ (∀ c ∈ ds, '0' ≤ c ∧ c ≤ '9') ∧
      ((sign = ['-'] ∧ z = -(digitsValue ds : Int)) ∨
        ((sign = [] ∨ sign = ['+']) ∧ z = (digitsValue ds : Int))) := by
  constructor
  · intro h
    unfold parseInt at h
    split at h <;> simp only [Option.map_eq_some_iff, parseDigits_eq_some] at h
    · obtain ⟨k, ⟨h1, h2, rfl⟩, rfl⟩ := h
      exact ⟨['-'], _, rfl, h1, h2, .inl ⟨rfl, rfl⟩⟩
    · obtain ⟨k, ⟨h1, h2, rfl⟩, rfl⟩ := h
      exact ⟨['+'], _, rfl, h1, h2, .inr ⟨.inr rfl, rfl⟩⟩
    · obtain ⟨k, ⟨h1, h2, rfl⟩, rfl⟩ := h
      exact ⟨[], _, rfl, h1, h2, .inr ⟨.inl rfl, rfl⟩⟩
  · rintro ⟨sign, ds, rfl, h1, h2, h3⟩
    have hd : parseDigits ds = some (digitsValue ds) := parseDigits_eq_some.mpr ⟨h1, h2, rfl⟩
    rcases h3 with ⟨rfl, rfl⟩ | ⟨rfl | rfl, rfl⟩
    · simp [parseInt, hd]
    · obtain ⟨d, ds', rfl⟩ := List.exists_cons_of_ne_nil h1
      have h0 := h2 d (by simp)
      simp only [List.nil_append]
      unfold parseInt
      split
      · next h =>
        cases h
        exact absurd h0 (by decide)
      · next h =>
        cases h
        exact absurd h0 (by decide)
      · simp [hd]
    · simp [parseInt, hd]

theorem digitChar_value {d : Nat} (h : d < 10) :
    ('0' ≤ d.digitChar ∧ d.digitChar ≤ '9') ∧ d.digitChar.toNat - 48 = d := by
  interval_cases d <;> decide

/-- The decimal digits of a number are digits, at least one, and denote it. -/
theorem toDigits_denotes (n : Nat) :
    Nat.toDigits 10 n ≠ [] ∧ (∀ c ∈ Nat.toDigits 10 n, '0' ≤ c ∧ c ≤ '9') ∧ digitsValue (Nat.toDigits 10 n) = n := by
  induction n using Nat.strongRecOn with
  | _ n ih =>
    by_cases h : n < 10
    · rw [Nat.toDigits_of_lt_base h]
      simpa [digitsValue] using digitChar_value h
    · rw [Nat.toDigits_of_base_le (by omega) (by omega)]
      obtain ⟨-, h2, h3⟩ := ih (n / 10) (by omega)
      have hd := digitChar_value (Nat.mod_lt n (show 0 < 10 by omega))
      refine ⟨by simp, fun c hc => ?_, ?_⟩
      · rcases List.mem_append.mp hc with hc | hc
        · exact h2 c hc
        · rw [List.mem_singleton.mp hc]
          exact hd.1
      · unfold digitsValue at *
        simp only [List.foldl_append, List.foldl_cons, List.foldl_nil, h3, hd.2]
        omega

/-! ### Trimming and splitting -/

/-- What is trimmed is blanks at the two ends. -/
theorem trimBlanks_split (cs : List Char) :
    ∃ l r, cs = l ++ trimBlanks cs ++ r ∧ (∀ c ∈ l, isBlank c = true) ∧ (∀ c ∈ r, isBlank c = true) := by
  have h1 := List.takeWhile_append_dropWhile (p := isBlank) (l := cs)
  have h2 := List.takeWhile_append_dropWhile (p := isBlank) (l := (cs.dropWhile isBlank).reverse)
  refine ⟨cs.takeWhile isBlank, ((cs.dropWhile isBlank).reverse.takeWhile isBlank).reverse, ?_, fun c hc => ?_,
    fun c hc => ?_⟩
  · unfold trimBlanks
    conv_lhs => rw [← h1]
    rw [List.append_assoc, ← List.reverse_append, h2, List.reverse_reverse]
  · exact List.mem_takeWhile_imp hc
  · exact List.mem_takeWhile_imp (List.mem_reverse.mp hc)

theorem dropWhile_blanks {l m : List Char} (hl : ∀ c ∈ l, isBlank c = true) :
    (l ++ m).dropWhile isBlank = m.dropWhile isBlank := by
  induction l with
  | nil => rfl
  | cons c l ih =>
    simp only [List.cons_append, List.dropWhile_cons, hl c (by simp), if_true]
    exact ih fun d hd => hl d (by simp [hd])

/-- Trimming gives back what stands between blanks, where neither end of it is blank. -/
theorem trimBlanks_of {l m r : List Char} (hl : ∀ c ∈ l, isBlank c = true) (hr : ∀ c ∈ r, isBlank c = true)
    (hm : m ≠ []) (h1 : ∀ c, m.head? = some c → isBlank c = false)
    (h2 : ∀ c, m.getLast? = some c → isBlank c = false) : trimBlanks (l ++ m ++ r) = m := by
  unfold trimBlanks
  rw [List.append_assoc, dropWhile_blanks hl]
  obtain ⟨a, m', rfl⟩ := List.exists_cons_of_ne_nil hm
  rw [List.cons_append, List.dropWhile_cons_of_neg (by simp [h1 a rfl]), ← List.cons_append, List.reverse_append,
    dropWhile_blanks (by simpa using hr)]
  obtain ⟨b, n, hb⟩ := List.exists_cons_of_ne_nil (show (a :: m').reverse ≠ [] by simp)
  have hb' : (a :: m').getLast? = some b := by
    rw [← List.head?_reverse, hb]
    rfl
  rw [hb, List.dropWhile_cons_of_neg (by simp [h2 b hb']), ← hb, List.reverse_reverse]

theorem splitCommas_ne_nil (cs : List Char) : splitCommas cs ≠ [] := by
  cases cs with
  | nil => simp [splitCommas]
  | cons c cs =>
    simp only [splitCommas]
    split <;> (try split) <;> simp

/-- The items joined again are the text. -/
theorem intercalate_splitCommas (cs : List Char) : List.intercalate [','] (splitCommas cs) = cs := by
  induction cs with
  | nil => rfl
  | cons c cs ih =>
    simp only [splitCommas]
    split
    · next h => exact absurd h (splitCommas_ne_nil _)
    · next item items h =>
      rw [h] at ih
      split
      · next hc =>
        subst hc
        simp only [List.intercalate] at ih ⊢
        simpa using ih
      · cases items <;> simp [List.intercalate] at ih ⊢ <;> exact ih

/-- Items without commas, joined, are split into the same items. -/
theorem splitCommas_intercalate {items : List (List Char)} (hne : items ≠ []) (hc : ∀ i ∈ items, ',' ∉ i) :
    splitCommas (List.intercalate [','] items) = items := by
  have prefix_item : ∀ (i T : List Char) (is : List (List Char)), ',' ∉ i → splitCommas T = [] :: is →
      splitCommas (i ++ T) = i :: is := by
    intro i T is hi hT
    induction i with
    | nil => exact hT
    | cons c i ih =>
      simp only [List.mem_cons, not_or] at hi
      simp only [List.cons_append, splitCommas, ih hi.2]
      rw [if_neg fun e => hi.1 e.symm]
  induction items with
  | nil => cases hne rfl
  | cons i is ih =>
    cases is with
    | nil => simpa using prefix_item i [] [] (hc i (by simp)) rfl
    | cons j js =>
      have hj := ih (by simp) fun x hx => hc x (by simp [hx])
      have e : List.intercalate [','] (i :: j :: js) = i ++ ',' :: List.intercalate [','] (j :: js) := by
        simp [List.intercalate]
      rw [e]
      exact prefix_item i _ _ (hc i (by simp)) (by simp [splitCommas, hj])

/-! ### Items -/

theorem wrap64_toInt (w : Word) : wrap64 w.toInt = w := by
  simp [wrap64]

theorem toInt_wrap64 {z : Int} (h1 : Config.int64Min ≤ z) (h2 : z ≤ (Config.int64Max : Int)) : (wrap64 z).toInt = z := by
  simp only [Config.int64Min, Config.int64Max] at h1 h2
  rw [wrap64, BitVec.toInt_ofInt, Int.bmod_eq_of_le (by norm_num; omega) (by norm_num; omega)]

theorem isBlank_of_digit {c : Char} (h : '0' ≤ c ∧ c ≤ '9') : isBlank c = false := by
  simp only [isBlank, Bool.or_eq_false_iff, beq_eq_false_iff_ne]
  refine ⟨⟨⟨?_, ?_⟩, ?_⟩, ?_⟩ <;> (rintro rfl; exact absurd h (by decide))

/-- The items of a text are read one by one, all or none. -/
theorem parseItems_eq_some {items : List (List Char)} {ws : List Word} :
    parseItems items = some ws ↔ List.Forall₂ (fun i w => parseItem i = some w) items ws := by
  induction items generalizing ws with
  | nil => cases ws <;> simp [parseItems]
  | cons i is ih =>
    simp only [parseItems]
    cases ws with
    | nil =>
      simp only [List.forall₂_cons_left_iff]
      split <;> simp
    | cons w ws =>
      rw [List.forall₂_cons, ← ih]
      split
      · next h1 h2 => simp [h1, h2]
      · next h =>
        simp only [reduceCtorEq, false_iff, not_and]
        exact fun h1 h2 => h _ _ h1 h2

end Sys2Proof.Machine
end

