-- ==== Sys2Proof/Tests/Slice0.lean ====
section
/-! SUPPORT. Tests of one step or one command each, with expected results from the spec's own examples and vectors
(`95_test_vectors.md`), and for every statement with hypotheses a state that meets them. -/

namespace Sys2Proof.Tests

open Sys2Proof Sys2Proof.Machine

/-- A small state: a tape from cell 0 on, and chosen registers and input queue. -/
def vm (tape : List Word) (pc : Nat := 0) (rb : Word := 0) (inputs : List Word := []) : State :=
  { (State.reset.load tape) with pc := pc, rb := rb, inputQueue := inputs }

/-- The state an outcome answers, if it answers one. -/
def after (o : Host.Outcome State Fault Refusal) : Option State :=
  match o with
  | .next t => some t
  | .fault _ => none
  | .refused _ => none

/-- `2^63 - 1`, the largest cell. -/
def maxWord : Word := 9223372036854775807

/-- `-2^63`, the smallest cell. -/
def minWord : Word := -9223372036854775808

/-! ### Well-formedness: the one check, on each constructor that has a write parameter -/

theorem test_wellFormed_add_immediate_dst :
    (Instr.add ⟨.immediate, 1⟩ ⟨.immediate, 1⟩ ⟨.immediate, 5⟩).wellFormed = false := by decide

theorem test_wellFormed_mul_immediate_dst :
    (Instr.mul ⟨.position, 1⟩ ⟨.position, 1⟩ ⟨.immediate, 5⟩).wellFormed = false := by decide

theorem test_wellFormed_input_immediate_dst : (Instr.input ⟨.immediate, 5⟩).wellFormed = false := by decide

theorem test_wellFormed_lessThan_immediate_dst :
    (Instr.lessThan ⟨.relative, 1⟩ ⟨.position, 1⟩ ⟨.immediate, 5⟩).wellFormed = false := by decide

theorem test_wellFormed_equals_immediate_dst :
    (Instr.equals ⟨.relative, 1⟩ ⟨.position, 1⟩ ⟨.immediate, 5⟩).wellFormed = false := by decide

theorem test_wellFormed_accepts :
    (Instr.add ⟨.immediate, 1⟩ ⟨.immediate, 1⟩ ⟨.relative, 5⟩).wellFormed = true ∧
    (Instr.output ⟨.immediate, 5⟩).wellFormed = true := by decide

/-! ### Decoding: words written out digit by digit, `m3 m2 m1 o o` (`30_encoding.md` R81; `95_test_vectors.md` 2.1) -/

/-- R97's example: in 1201 the digits are m3 = 0, m2 = 1, m1 = 2, opcode 01 -/
theorem test_decode_add :
    decode [1201, 3, 7, 10] = .ok (.add ⟨.relative, 3⟩ ⟨.immediate, 7⟩ ⟨.position, 10⟩, []) := by decide

theorem test_decode_add_relative_dst :
    decode [21101, 4, 5, -3] = .ok (.add ⟨.immediate, 4⟩ ⟨.immediate, 5⟩ ⟨.relative, -3⟩, []) := by decide

theorem test_decode_mul :
    decode [1002, 4, 3, 4, 33] = .ok (.mul ⟨.position, 4⟩ ⟨.immediate, 3⟩ ⟨.position, 4⟩, [33]) := by decide

theorem test_decode_input : decode [12003, 9] = .ok (.input ⟨.position, 9⟩, []) := by decide

theorem test_decode_output : decode [204, -1] = .ok (.output ⟨.relative, -1⟩, []) := by decide

theorem test_decode_jumpIfTrue :
    decode [10005, 3, 4] = .ok (.jumpIfTrue ⟨.position, 3⟩ ⟨.position, 4⟩, []) := by decide

theorem test_decode_jumpIfFalse :
    decode [1106, 0, 7] = .ok (.jumpIfFalse ⟨.immediate, 0⟩ ⟨.immediate, 7⟩, []) := by decide

theorem test_decode_lessThan :
    decode [21107, 2, 3, 0] = .ok (.lessThan ⟨.immediate, 2⟩ ⟨.immediate, 3⟩ ⟨.relative, 0⟩, []) := by decide

theorem test_decode_equals :
    decode [20208, 1, 2, 3] = .ok (.equals ⟨.relative, 1⟩ ⟨.position, 2⟩ ⟨.relative, 3⟩, []) := by decide

theorem test_decode_adjustRelativeBase : decode [109, 19] = .ok (.adjustRelativeBase ⟨.immediate, 19⟩, []) := by decide

theorem test_decode_halt : decode [90099] = .ok (.halt, []) := by decide

/-- digits of weight 10^5 and above are ignored (D8) -/
theorem test_decode_high_digits :
    decodeWord 1000000000000000002 = .ok ⟨.mul, .position, .position, .position⟩ := by decide

/-- each kind of refusal, and the vectors' `MAX` -/
theorem test_decode_refusals :
    decodeWord 10001 = .error (.immediateWrite 3) ∧ decodeWord 103 = .error (.immediateWrite 1) ∧
    decodeWord 301 = .error (.illegalMode 1 3) ∧ decodeWord 3005 = .error (.illegalMode 2 3) ∧
    decodeWord 0 = .error (.unsupportedOpcode 0) ∧ decodeWord 98 = .error (.unsupportedOpcode 98) ∧
    decodeWord (-1) = .error .negativeWord ∧ decodeWord maxWord = .error (.illegalMode 1 8) := by decide

theorem test_decode_truncated : decode [1101, 1, 1] = .error .truncated := by decide

/-- the example of R97, encoded -/
theorem test_encode_add :
    encode (.add ⟨.relative, 3⟩ ⟨.immediate, 7⟩ ⟨.position, 10⟩) = [1201, 3, 7, 10] := by decide

/-- cells in a number: the first cell lowest, parameters above it -/
theorem test_decodeTableWord :
    decodeTableWord 24 104 = some (.output ⟨.immediate, 0⟩) ∧
    decodeTableWord 128 (104 + 7 * 2 ^ 64) = some (.output ⟨.immediate, 7⟩) ∧ decodeTableWord 16 0 = none := by decide

/-- an instruction placed at the program counter is the one the next step runs, as the first after reset -/
theorem test_withFetchWord :
    (after (step (State.reset.withFetchWord 128 (104 + 7 * 2 ^ 64)))).map (·.outputQueue) = some [7] := by decide

/-! ### One step of each instruction (`95_test_vectors.md` 2.2 to 2.5) -/

/-- A3: the sum wraps -/
theorem test_add_wraps :
    (after (step (vm [1101, maxWord, 1, 5, 99]))).map (fun t => (t.memory.read 5, t.pc, t.status))
      = some (minWord, 4, .running) := by decide

/-- A6: both sources and the destination are one cell -/
theorem test_add_same_cell : (after (step (vm [1, 4, 4, 4, 21]))).map (·.memory.read 4) = some 42 := by decide

/-- M6: the product's low 64 bits as a signed number -/
theorem test_mul_wraps :
    (after (step (vm [1102, 3037000500, 3037000500, 5, 99]))).map (·.memory.read 5) = some (-9223372036709301616) := by decide

/-- M7: signs -/
theorem test_mul_signed : (after (step (vm [1102, -3, 7, 5, 99]))).map (·.memory.read 5) = some (-21) := by decide

/-- L3: the comparison is signed -/
theorem test_lessThan_signed :
    (after (step (vm [1107, minWord, maxWord, 5, 99]))).map (·.memory.read 5) = some 1 := by decide

/-- L2: equal is not less, and the operands are not swapped -/
theorem test_lessThan_strict :
    (after (step (vm [1107, 3, 3, 0]))).map (·.memory.read 0) = some 0 ∧
    (after (step (vm [1107, 3, 2, 0]))).map (·.memory.read 0) = some 0 := by decide

/-- E3: the old value is overwritten -/
theorem test_equals_position : (after (step (vm [8, 5, 6, 7, 99, 8, 8, -1]))).map (·.memory.read 7) = some 1 := by decide

/-- E2 -/
theorem test_equals_false : (after (step (vm [1108, 0, 1, 5, 99]))).map (·.memory.read 5) = some 0 := by decide

/-- I2: relative destination, value consumed -/
theorem test_input_relative :
    (after (step (vm [203, 5, 99] 0 10 [-7]))).map (fun t => (t.memory.read 15, t.inputQueue, t.pc))
      = some (-7, [], 2) := by decide

/-- I6: with an empty queue `NeedsInput` precedes `MemoryError`; I5: with a value nothing is consumed -/
theorem test_input_order :
    (after (step (vm [3, -1, 99]))).map (·.status) = some .needsInput ∧
    (after (step (vm [3, -1, 99] 0 0 [1]))).map (fun t => (t.status, t.inputQueue)) = some (.memoryError, [1]) := by decide

/-- O3: relative source -/
theorem test_output_relative : (after (step (vm [204, -1, 99] 0 1))).map (·.outputQueue) = some [204] := by decide

/-- O4: a never-written cell reads 0 -/
theorem test_output_unwritten : (after (step (vm [4, 100, 99]))).map (·.outputQueue) = some [0] := by decide

/-- J3: the target is the value of the second operand -/
theorem test_jumpIfTrue_position : (after (step (vm [5, 3, 4, -2, 9]))).map (·.pc) = some 9 := by decide

/-- J13 and J5: the target is resolved when not taken, but only a taken negative target is `InvalidPC` -/
theorem test_jumpIfTrue_not_taken :
    (after (step (vm [105, 0, -1]))).map (·.status) = some .memoryError ∧
    (after (step (vm [1105, 0, -1]))).map (fun t => (t.pc, t.status)) = some (3, .running) := by decide

/-- J7 and J8 -/
theorem test_jumpIfFalse :
    (after (step (vm [1106, 0, 7]))).map (·.pc) = some 7 ∧ (after (step (vm [1106, 5, 7]))).map (·.pc) = some 3 := by decide

/-- J9: `pc` keeps the address of the jump -/
theorem test_jumpIfFalse_negative :
    (after (step (vm [1106, 0, -5]))).map (fun t => (t.pc, t.status)) = some (0, .invalidPC) := by decide

/-- B4: the operand is read at the old `rb` -/
theorem test_adjustRelativeBase_relative : (after (step (vm [209, 1, 99] 0 1))).map (·.rb) = some 100 := by decide

/-- B6: `rb` wraps -/
theorem test_adjustRelativeBase_wraps : (after (step (vm [109, -1, 99] 0 minWord))).map (·.rb) = some maxWord := by decide

/-- H3: halt at the last cell raises nothing -/
theorem test_halt_at_the_end :
    (after (step { State.reset with memory := [(9223372036854775807, 99)], pc := 9223372036854775807 })).map
      (fun t => (t.status, t.pc)) = some (.halted, 9223372036854775807) := by decide

/-- P-terminal: a direct write does not revive a stopped instance -/
theorem test_halt_sticky :
    (after (step { (vm [1101, 1, 1, 0]) with status := .halted })).map (fun t => (t.status, t.memory.read 0))
      = some (.halted, 1101) := by decide

/-! ### Priority of conditions (`95_test_vectors.md` 2.7) and the ends of the address space (2.4) -/

/-- Q1, Q2, Q4, Q5 -/
theorem test_priority :
    (after (step (vm [10001, -1, -1, -1]))).map (·.status) = some .decodeError ∧
    (after (step (vm [103, 0]))).map (·.status) = some .decodeError ∧
    (after (step (vm [5, -1, -1]))).map (·.status) = some .memoryError ∧
    (after (step (vm [1005, 0, -1]))).map (·.status) = some .invalidPC := by decide

/-- Q6 and Q7: at the last cell -/
theorem test_priority_at_the_end :
    (after (step { State.reset with memory := [(9223372036854775807, 3)], pc := 9223372036854775807 })).map (·.status)
      = some .invalidPC ∧
    (after (step { State.reset with memory := [(9223372036854775807, -5)], pc := 9223372036854775807 })).map (·.status)
      = some .decodeError := by decide

/-- X2 and X3: falling through past the last cell, and a taken jump from there -/
theorem test_last_cells :
    (after (step { State.reset with
        memory := [(9223372036854775806, 104), (9223372036854775807, 5)], pc := 9223372036854775806 })).map
      (fun t => (t.status, t.outputQueue)) = some (.invalidPC, []) ∧
    (after (step { State.reset with
        memory := [(9223372036854775805, 1105), (9223372036854775806, 1)], pc := 9223372036854775805 })).map
      (fun t => (t.status, t.pc)) = some (.running, 0) := by decide

/-- A13 and A14: a relative sum is not wrapped -/
theorem test_relative_sum_outside :
    (after (step (vm [201, 1, 0, 0] 0 maxWord))).map (·.status) = some .memoryError ∧
    (after (step (vm [201, -1, 0, 0] 0 minWord))).map (·.status) = some .memoryError := by decide

/-! ### Host commands (`95_test_vectors.md` 2.6) -/

/-- The world after the commands of a list, and the last response; nothing where one is refused. -/
def drive (w : World) : List Command → Option (World × Reply)
  | [] => some (w, .none)
  | c :: cs =>
    match w.command c with
    | .next (v, r) => if cs = [] then some (v, r) else drive v cs
    | .fault _ => none
    | .refused _ => none

/-- C1 -/
theorem test_create_step : (drive World.empty [.create, .on 0 .step]).map (·.2) = some (.status .decodeError) := by decide

/-- C3 and C4: a failed direct access does not stop the instance -/
theorem test_direct_access_fails :
    (drive World.empty [.create, .on 0 (.load [99]), .on 0 (.memRead (-1))]).map (·.2) = some .memoryError ∧
    (drive World.empty [.create, .on 0 (.load [99]), .on 0 (.memWrite (-1) 5), .on 0 .step]).map (·.2)
      = some (.status .halted) := by decide

/-- C6: the retry decodes the word now at `pc` -/
theorem test_retry_decodes_afresh :
    (drive World.empty [.create, .on 0 (.load [3, 5, 99]), .on 0 .step, .on 0 (.memWrite 0 99), .on 0 .step]).map (·.2)
      = some (.status .halted) := by decide

/-- C7 and C8 -/
theorem test_patch :
    (drive World.empty [.create, .on 0 (.load [1105, 0, 9]), .on 0 (.patchInstructionAt 0), .on 0 (.memRead 0)]).map (·.2)
      = some (.cell 1106) ∧
    (drive World.empty [.create, .on 0 (.load [1105, 0, 9]), .on 0 (.patchInstructionAt 0),
      .on 0 (.patchInstructionAt 0), .on 0 (.memRead 0)]).map (·.2) = some (.cell 1105) := by decide

/-- S3 of the source: load `3,0,4,0,99`, `add_input(42)`, `run`, `pop_output` -/
theorem test_run_echo :
    (drive World.empty [.create, .on 0 (.load [3, 0, 4, 0, 99]), .on 0 (.addInput 42), .on 0 (.run 3), .on 0 .popOutput]).map
      (·.2) = some (.output (some 42)) := by decide

/-- C12: a clone does not see the original's input -/
theorem test_clone_independent :
    (drive World.empty [.create, .on 0 (.load [3, 0, 4, 0, 99]), .clone 0, .on 0 (.addInput 1), .on 0 (.run 3),
      .on 1 .step]).map (·.2) = some (.status .needsInput) := by decide

/-- C14: a clone outlives the original, whose handle is then refused -/
theorem test_destroy :
    (drive World.empty [.create, .on 0 (.load [104, 1, 99]), .clone 0, .destroy 0, .on 1 (.run 2), .on 1 .popOutput]).map
      (·.2) = some (.output (some 1)) ∧
    (drive World.empty [.create, .destroy 0, .on 0 .step]).isNone = true := by decide

/-- R211: `load` only while fresh -/
theorem test_load_not_fresh :
    (drive World.empty [.create, .on 0 (.addInput 1), .on 0 (.load [99])]).isNone = true := by decide

/-- R98's example -/
theorem test_parse :
    parseTape ['1', ',', '0', ',', '0', ',', '0', ',', '9', '9'] = some [1, 0, 0, 0, 99] ∧
    parseTape ['1', ',', ' '] = none := by decide

/-- The state and response of a command on a fresh instance, where it answers. -/
def performed (c : VmCommand) (s : State) : Option (State × Reply) :=
  match State.perform c true s with
  | .next r => some r
  | .fault _ => none
  | .refused _ => none

/-! ### Witnesses: for every statement with hypotheses, concrete values that meet them, clause by clause -/

/-- The state with one cell listed, at the last address, and `pc` there. -/
def atLastCell (w : Word) : State :=
  { State.reset with memory := [(9223372036854775807, w)], pc := 9223372036854775807 }

/-- One instance, under handle 0, and a copy of it under handle 1. -/
def twoVms : World := { live := [(0, ⟨vm [104, 1, 99], false⟩), (1, ⟨vm [104, 1, 99], false⟩)], nextHandle := 2, draws := 0 }

theorem witness_DecodeOfEncodeIsTheInstruction :
    (Instr.add ⟨.relative, minWord⟩ ⟨.immediate, maxWord⟩ ⟨.relative, -1⟩).wellFormed = true ∧
    (Instr.input ⟨.position, 0⟩).wellFormed = true ∧ Instr.halt.wellFormed = true := by decide

theorem witness_DecodeReadsTheDecimalFields :
    decodeWord 21001 = .ok ⟨.add, .position, .immediate, .relative⟩ ∧
    decodeWord 5 = .ok ⟨.jumpIfTrue, .position, .position, .position⟩ := by decide

theorem witness_UnsupportedOpcodeIsDecodeError :
    0 ≤ (10 : Word).toInt ∧ (10 : Word).toNat % 100 ∉ [1, 2, 3, 4, 5, 6, 7, 8, 9, 99] ∧
    (98 : Word).toNat % 100 ∉ [1, 2, 3, 4, 5, 6, 7, 8, 9, 99] ∧
    (vm [10]).Active ∧ (vm [10]).memory.read (vm [10]).pc = 10 ∧
    (vm []).Active ∧ (vm []).memory.read (vm []).pc = 0 := by decide

theorem witness_ImmediateWriteParameterIsDecodeError :
    (0 ≤ (10001 : Word).toInt ∧ (10001 : Word).toNat % 100 ∈ [1, 2, 7, 8] ∧ (10001 : Word).toNat / 10000 % 10 = 1) ∧
    (0 ≤ (103 : Word).toInt ∧ (103 : Word).toNat % 100 = 3 ∧ (103 : Word).toNat / 100 % 10 = 1) ∧
    (vm [103]).Active ∧ (vm [103]).memory.read (vm [103]).pc = 103 := by decide

theorem witness_NegativeWordsAndOtherDigitsAreRefused :
    (-1 : Word).toInt < 0 ∧
    (0 ≤ (301 : Word).toInt ∧ Opcode.add.number = (301 : Word).toNat % 100 ∧ 0 < Opcode.add.arity ∧
      2 < (301 : Word).toNat / 10 ^ (0 + 2) % 10) ∧
    (0 ≤ (90001 : Word).toInt ∧ Opcode.add.number = (90001 : Word).toNat % 100 ∧ 2 < Opcode.add.arity ∧
      2 < (90001 : Word).toNat / 10 ^ (2 + 2) % 10) := by decide

theorem witness_IgnoredDigitsAreNotExamined :
    (0 ≤ (3 : Word).toInt ∧ 0 ≤ (12003 : Word).toInt ∧ Opcode.input.number = (3 : Word).toNat % 100 ∧
      Opcode.input.number = (12003 : Word).toNat % 100 ∧
      ∀ k, k < Opcode.input.arity → (3 : Word).toNat / 10 ^ (k + 2) % 10 = (12003 : Word).toNat / 10 ^ (k + 2) % 10) ∧
    (Opcode.halt.number = (99 : Word).toNat % 100 ∧ Opcode.halt.number = (90099 : Word).toNat % 100 ∧
      Opcode.halt.arity = 0) := by decide

theorem witness_DecodedInstructionsAreWellFormed :
    decode [203, 5, 99] = .ok (.input ⟨.relative, 5⟩, [99]) := by decide

theorem witness_StepRunsTheDecodedInstruction :
    (vm [104, 7]).Active ∧
    decode [(vm [104, 7]).memory.read (vm [104, 7]).pc, (vm [104, 7]).memory.read ((vm [104, 7]).pc + 1),
      (vm [104, 7]).memory.read ((vm [104, 7]).pc + 2), (vm [104, 7]).memory.read ((vm [104, 7]).pc + 3)]
      = .ok (.output ⟨.immediate, 7⟩, [0, 0]) ∧
    (vm [104, 7]).pc + (Instr.output ⟨.immediate, 7⟩).arity ≤ Config.int64Max := by decide

theorem witness_TerminalStepChangesNothing :
    ({ vm [99] with status := .halted } : State).status = .halted ∧
    ({ vm [99] with status := .invalidPC } : State).status = .invalidPC ∧
    ({ vm [99] with status := .memoryError } : State).status = .memoryError ∧
    ({ vm [99] with status := .decodeError } : State).status = .decodeError := by decide

theorem witness_FetchDecodesTheWordAtPc :
    ((vm [301]).status = .running ∧ decodeWord ((vm [301]).memory.read (vm [301]).pc) = .error (.illegalMode 1 3)) ∧
    ((vm [99] 1).status = .running ∧ ∀ c ∈ (vm [99] 1).memory, c.1 ≠ (vm [99] 1).pc) ∧
    (atLastCell 99).Inv := by decide

theorem witness_ParameterCellsBeyondTheEndAreInvalidPC :
    (atLastCell 104).Active ∧
    decodeWord ((atLastCell 104).memory.read (atLastCell 104).pc) = .ok ⟨.output, .immediate, .position, .position⟩ ∧
    Config.int64Max < (atLastCell 104).pc + Opcode.output.arity := by decide

theorem witness_StepKeepsTheInvariant :
    (vm [1101, 2, 3, 0]).Inv ∧ (after (step (vm [1101, 2, 3, 0]))).isSome = true := by decide

theorem witness_RaisedConditionsChangeOnlyTheStatus :
    (after (step (vm [3, 0]))).map (·.status) = some .needsInput ∧
    (after (step (vm [1105, 1, -1]))).map (·.status) = some .invalidPC := by decide

/-- A step into each of the six statuses; `InvalidPC` in the fetch, past the end and by a jump. -/
theorem witness_StatusTransitionsOfAStep :
    (vm [99]).Active ∧ (after (step (vm [99]))).map (·.status) = some .halted ∧
    (after (step (vm [104, 1]))).map (·.status) = some .running ∧
    (after (step (vm [3, 0]))).map (·.status) = some .needsInput ∧
    (after (step (vm [98]))).map (·.status) = some .decodeError ∧
    (vm [4, -1]).Active ∧ (after (step (vm [4, -1]))).map (·.status) = some .memoryError ∧
    (after (step (atLastCell 104))).map (·.status) = some .invalidPC ∧
    (after (step (vm [1106, 0, -5]))).map (·.status) = some .invalidPC := by decide

/-- The two jumps go to `pc + 3` or to the target's value, in range or not. -/
theorem witness_GoesTo :
    (vm [1105, 0, -1]).GoesTo (.jumpIfTrue ⟨.immediate, 0⟩ ⟨.immediate, -1⟩) 3 ∧
    (vm [1106, 0, -1]).GoesTo (.jumpIfFalse ⟨.immediate, 0⟩ ⟨.immediate, -1⟩) (-1) :=
  ⟨⟨0, -1, rfl, rfl, rfl⟩, ⟨0, -1, rfl, rfl, rfl⟩⟩

theorem witness_SuspendedInputIsRetried :
    (vm [3, 5]).Active ∧ fetchInstr (vm [3, 5]) = .instr (.input ⟨.position, 5⟩) ∧ (vm [3, 5]).inputQueue = [] ∧
    adr (vm [3, 5]) ⟨.position, 5⟩ = .ok 5 ∧ (vm [3, 5]).pc + 2 ≤ Config.int64Max := by decide

theorem witness_SuspensionIsExact :
    (vm [3, 5]).status = .running ∧ (vm [3, 5]).inputQueue = [] ∧
    fetchInstr (vm [3, 5]) = .instr (.input ⟨.position, 5⟩) ∧
    after (step (vm [3, 5])) = some { vm [3, 5] with status := .needsInput } := by decide

/-- A run that returns at its second step, and one that has not returned after two: the loop of one jump to itself. -/
theorem witness_RunIsRepeatedStep :
    ((vm [104, 1, 99]).run 2).map (·.status) = some .halted ∧
    (after (Sys2Proof.core.run 1 (vm [104, 1, 99]))).map (·.status) = some .running ∧
    (after (Sys2Proof.core.run 2 (vm [104, 1, 99]))).map (·.status) = some .halted ∧
    (after (Sys2Proof.core.run 1 (vm [1105, 1, 0]))).map (·.status) = some .running ∧
    (after (Sys2Proof.core.run 2 (vm [1105, 1, 0]))).map (·.status) = some .running := by decide

theorem witness_StepWritesOnlyWhatItsInstructionWrites :
    (after (step (vm [109, 1]))).map (·.rb) = some 1 ∧ (after (step (vm [104, 1]))).map (·.outputQueue) = some [1] ∧
    (after (step (vm [3, 0] 0 0 [7]))).map (fun t => (t.inputQueue, t.memory.read 0)) = some ([], 7) ∧
    (after (step (vm [1105, 1, 7]))).map (·.pc) = some 7 := by decide

/-- Addresses at both ends of the legal range, and one outside it on each side. -/
theorem witness_OperandsResolveByMode :
    LegalAddr (0 : Word).toInt ∧ LegalAddr maxWord.toInt ∧ ¬ LegalAddr (-1 : Word).toInt ∧
    LegalAddr (maxWord.toInt + (0 : Word).toInt) ∧ ¬ LegalAddr (maxWord.toInt + (1 : Word).toInt) := by decide

theorem witness_WrapIsTwosComplement :
    Config.int64Min ≤ (-9223372036854775808 : Int) ∧ (9223372036854775807 : Int) ≤ (Config.int64Max : Int) := by decide

/-- For add, mul, less-than, equals alike: operands in each mode, and `pc + 4` at the end of its range. -/
theorem witness_ArithmeticCompletes :
    val (vm [0, 0, 0, 0, 11] 9223372036854775803 2) ⟨.position, 4⟩ = .ok 11 ∧
    val (vm [0, 0, 0, 0, 11] 9223372036854775803 2) ⟨.relative, 2⟩ = .ok 11 ∧
    adr (vm [0, 0, 0, 0, 11] 9223372036854775803 2) ⟨.relative, -2⟩ = .ok 0 ∧
    (vm [0, 0, 0, 0, 11] 9223372036854775803 2).pc + 4 ≤ Config.int64Max := by decide

theorem witness_AddStoresTheSum :
    (after (exec (.add ⟨.position, 4⟩ ⟨.relative, 2⟩ ⟨.relative, -2⟩) (vm [0, 0, 0, 0, 11] 9223372036854775803 2))).map
      (fun t => (t.memory.read 0, t.pc)) = some (22, 9223372036854775807) := by decide

theorem witness_MulStoresTheProduct :
    (after (exec (.mul ⟨.position, 4⟩ ⟨.relative, 2⟩ ⟨.relative, -2⟩) (vm [0, 0, 0, 0, 11] 9223372036854775803 2))).map
      (fun t => (t.memory.read 0, t.pc)) = some (121, 9223372036854775807) := by decide

theorem witness_LessThanStoresTheSignedComparison :
    (after (exec (.lessThan ⟨.immediate, 0⟩ ⟨.position, 4⟩ ⟨.relative, -2⟩) (vm [0, 0, 0, 0, 11] 0 2))).map
      (·.memory.read 0) = some 1 := by decide

theorem witness_EqualsStoresTheComparison :
    (after (exec (.equals ⟨.position, 4⟩ ⟨.immediate, 11⟩ ⟨.relative, -2⟩) (vm [0, 0, 0, 0, 11] 0 2))).map
      (·.memory.read 0) = some 1 := by decide

/-- Both frame clauses: a destination that resolves, and one that does not. -/
theorem witness_ArithmeticFrame :
    (after (exec (.mul ⟨.immediate, 2⟩ ⟨.immediate, 3⟩ ⟨.position, 0⟩) (vm []))).isSome = true ∧
    adr (vm []) ⟨.position, 0⟩ = .ok 0 ∧
    (after (exec (.equals ⟨.immediate, 2⟩ ⟨.immediate, 3⟩ ⟨.position, -1⟩) (vm []))).isSome = true ∧
    adr (vm []) ⟨.position, -1⟩ = .error .memoryError := by decide

theorem witness_InputStoresTheFrontValue :
    (vm [] 9223372036854775805 0 [5, 6]).inputQueue = [5, 6] ∧
    adr (vm [] 9223372036854775805 0 [5, 6]) ⟨.position, maxWord⟩ = .ok 9223372036854775807 ∧
    (vm [] 9223372036854775805 0 [5, 6]).pc + 2 ≤ Config.int64Max := by decide

theorem witness_InputOnAnEmptyQueueSuspends :
    (⟨.position, -1⟩ : Operand).writable = true ∧ (vm [3, -1]).inputQueue = [] := by decide

theorem witness_InputFrame :
    (after (exec (.input ⟨.position, 0⟩) (vm [] 0 0 [5]))).map (·.inputQueue) = some [] ∧
    (after (exec (.input ⟨.position, -1⟩) (vm [] 0 0 [5]))).map (·.inputQueue) = some [5] ∧
    adr (vm [] 0 0 [5]) ⟨.position, -1⟩ = .error .memoryError := by decide

theorem witness_OutputAppendsTheValue :
    val (vm [] 9223372036854775805) ⟨.position, 0⟩ = .ok 0 ∧
    (vm [] 9223372036854775805).pc + 2 ≤ Config.int64Max := by decide

/-- Taken to the two ends of the range, and not taken at the end of the range of `pc`. -/
theorem witness_JumpIfTrueGoesToTheTarget :
    val (vm [] 9223372036854775804) ⟨.immediate, -1⟩ = .ok (-1) ∧ (-1 : Word).toInt ≠ 0 ∧ 0 ≤ (0 : Word).toInt ∧
    0 ≤ maxWord.toInt ∧ (0 : Word).toInt = 0 ∧ (vm [] 9223372036854775804).pc + 3 ≤ Config.int64Max := by decide

theorem witness_JumpIfFalseGoesToTheTarget :
    (after (exec (.jumpIfFalse ⟨.immediate, 0⟩ ⟨.immediate, maxWord⟩) (vm []))).map (·.pc) = some 9223372036854775807 ∧
    (after (exec (.jumpIfFalse ⟨.immediate, 5⟩ ⟨.immediate, -1⟩) (vm [] 9223372036854775804))).map (·.pc)
      = some 9223372036854775807 := by decide

theorem witness_HaltStopsAndIsSticky :
    (atLastCell 1099).Active ∧ (atLastCell 1099).pc ≤ Config.int64Max ∧
    0 ≤ ((atLastCell 1099).memory.read (atLastCell 1099).pc).toInt ∧
    ((atLastCell 1099).memory.read (atLastCell 1099).pc).toNat % 100 = 99 ∧
    ({ vm [99] with status := .halted } : State).status = .halted ∧ 0 ≤ (0 : Word).toInt := by decide

theorem witness_AdjustRelativeBaseAdds :
    val (vm [9] 9223372036854775805 minWord) ⟨.position, 0⟩ = .ok 9 ∧
    (vm [9] 9223372036854775805 minWord).pc + 2 ≤ Config.int64Max := by decide

theorem witness_NonStoringFrames :
    (after (exec (.output ⟨.immediate, 1⟩) (vm []))).isSome = true ∧
    (after (exec (.adjustRelativeBase ⟨.immediate, 1⟩) (vm []))).isSome = true ∧
    (after (exec (.jumpIfTrue ⟨.immediate, 1⟩ ⟨.immediate, 1⟩) (vm []))).isSome = true ∧
    (after (exec (.jumpIfFalse ⟨.immediate, 1⟩ ⟨.immediate, 1⟩) (vm []))).isSome = true ∧
    (after (exec .halt (vm []))).isSome = true := by decide

/-- A position operand below the range, a relative one above it, and an input with a value waiting. -/
theorem witness_IllegalOperandAddressIsMemoryError :
    ((Instr.jumpIfTrue ⟨.immediate, 0⟩ ⟨.position, -1⟩).wellFormed = true ∧
      ⟨.position, -1⟩ ∈ (Instr.jumpIfTrue ⟨.immediate, 0⟩ ⟨.position, -1⟩).operands ∧ ¬ LegalAddr (-1 : Word).toInt) ∧
    ((Instr.input ⟨.relative, 1⟩).wellFormed = true ∧ ⟨.relative, 1⟩ ∈ (Instr.input ⟨.relative, 1⟩).operands ∧
      ¬ LegalAddr ((vm [] 0 maxWord [5]).rb.toInt + (1 : Word).toInt) ∧ (vm [] 0 maxWord [5]).inputQueue ≠ []) := by decide

theorem witness_NewPcOutOfRangeIsInvalidPC :
    ((Instr.output ⟨.immediate, 5⟩).wellFormed = true ∧ Instr.output ⟨.immediate, 5⟩ ≠ .halt ∧
      (∀ o ∈ (Instr.output ⟨.immediate, 5⟩).operands, o.mode = .immediate) ∧
      Config.int64Max < (vm [] 9223372036854775806).pc + 1 + (Instr.output ⟨.immediate, 5⟩).arity) ∧
    ((Instr.jumpIfTrue ⟨.immediate, 0⟩ ⟨.immediate, 5⟩).wellFormed = true ∧
      (∀ o ∈ (Instr.jumpIfTrue ⟨.immediate, 0⟩ ⟨.immediate, 5⟩).operands, o.mode = .immediate) ∧
      val (vm [] 9223372036854775805) ⟨.immediate, 0⟩ = .ok 0 ∧ (0 : Word).toInt = 0 ∧
      Config.int64Max < (vm [] 9223372036854775805).pc + 1 + (Instr.jumpIfTrue ⟨.immediate, 0⟩ ⟨.immediate, 5⟩).arity) ∧
    (val (vm []) ⟨.immediate, 1⟩ = .ok 1 ∧ val (vm []) ⟨.immediate, -1⟩ = .ok (-1) ∧ (-1 : Word).toInt < 0 ∧
      (1 : Word).toInt ≠ 0) ∧
    (val (vm []) ⟨.immediate, 0⟩ = .ok 0 ∧ (0 : Word).toInt = 0) := by decide

theorem witness_CanonicalMemoriesThatReadAlikeAreEqual :
    Memory.wf [(0, 5), (9223372036854775807, -1)] = true ∧
    Memory.wf (Memory.write (Memory.write [] 9223372036854775807 (-1)) 0 5) = true := by decide

/-- A sum stored to the next instruction's word, refused (10) and legal (99), and one to a parameter cell of the next
instruction; the four others that store, each to the word after it. -/
theorem witness_StoresAreSeenByTheNextFetch :
    (fetchInstr (vm [1101, 5, 5, 4, 0]) = .instr (.add ⟨.immediate, 5⟩ ⟨.immediate, 5⟩ ⟨.position, 4⟩) ∧
      (vm [1101, 5, 5, 4, 0]).Stores (.add ⟨.immediate, 5⟩ ⟨.immediate, 5⟩ ⟨.position, 4⟩) 4 10 ∧
      decodeWord 10 = .error (.unsupportedOpcode 10)) ∧
    (fetchInstr (vm [1101, 95, 4, 4, 0]) = .instr (.add ⟨.immediate, 95⟩ ⟨.immediate, 4⟩ ⟨.position, 4⟩) ∧
      (vm [1101, 95, 4, 4, 0]).Stores (.add ⟨.immediate, 95⟩ ⟨.immediate, 4⟩ ⟨.position, 4⟩) 4 99 ∧
      decodeWord 99 = .ok ⟨.halt, .position, .position, .position⟩) ∧
    (vm [1102, 3, 7, 5, 104]).Stores (.mul ⟨.immediate, 3⟩ ⟨.immediate, 7⟩ ⟨.position, 5⟩) 5 21 ∧
    (vm [1107, 3, 7, 4]).Stores (.lessThan ⟨.immediate, 3⟩ ⟨.immediate, 7⟩ ⟨.position, 4⟩) 4 1 ∧
    (vm [1108, 3, 7, 4]).Stores (.equals ⟨.immediate, 3⟩ ⟨.immediate, 7⟩ ⟨.position, 4⟩) 4 0 ∧
    (vm [3, 2] 0 0 [99]).Stores (.input ⟨.position, 2⟩) 2 99 ∧
    ((vm [99]).Active ∧ 0 ≤ (0 : Word).toInt) ∧
    ((vm [1105]).Active ∧ invertJump ((vm [1105]).memory.read (0 : Word).toNat) = some 1106) := by
  refine ⟨⟨by decide, ⟨rfl, 5, 5, rfl, rfl, by decide⟩, by decide⟩, ⟨by decide, ⟨rfl, 95, 4, rfl, rfl, by decide⟩, by decide⟩,
    ⟨rfl, 3, 7, rfl, rfl, by decide⟩, ⟨rfl, 3, 7, rfl, rfl, by decide⟩, ⟨rfl, 3, 7, rfl, rfl, by decide⟩, ⟨rfl, rfl⟩,
    by decide, by decide⟩

/-- The step after the store: the refused sum, the legal one, and a product that the next output shows. -/
theorem test_store_then_fetch :
    (after (Sys2Proof.core.run 2 (vm [1101, 5, 5, 4, 0]))).map (·.status) = some .decodeError ∧
    (after (Sys2Proof.core.run 2 (vm [1101, 95, 4, 4, 0]))).map (·.status) = some .halted ∧
    (after (Sys2Proof.core.run 2 (vm [1102, 3, 7, 5, 104]))).map (·.outputQueue) = some [21] := by decide

theorem witness_PopOutputTakesTheFront :
    ({ vm [] with outputQueue := [1, 2] } : State).outputQueue = [1, 2] ∧ (vm []).outputQueue = [] := by decide

theorem witness_MemWriteWritesOneCell : 0 ≤ (0 : Word).toInt ∧ 0 ≤ maxWord.toInt ∧ (-1 : Word).toInt < 0 := by decide

theorem witness_PatchInvertsTheJump :
    (decodeWord 1105 = .ok ⟨.jumpIfTrue, .immediate, .immediate, .position⟩ ∧
      decodeWord 2206 = .ok ⟨.jumpIfFalse, .relative, .relative, .position⟩) ∧
    (0 ≤ (0 : Word).toInt ∧ invertJump ((vm [1105]).memory.read (0 : Word).toNat) = some 1106) ∧
    (-3 : Word).toInt < 0 ∧ ((vm [-5]).memory.read 0).toInt < 0 ∧
    ((vm [99]).memory.read 0).toNat % 100 ≠ 5 ∧ ((vm [99]).memory.read 0).toNat % 100 ≠ 6 := by decide

theorem witness_QueuesAreFifoOverEveryRun :
    after (Sys2Proof.core.run 2 (vm [3, 0, 104, 7] 0 0 [1, 2]))
      = some { vm [1, 0, 104, 7] with pc := 4, inputQueue := [2], outputQueue := [7] } := by decide

theorem witness_LoadPlacesTheTape : ([1, 0, 0, 0, 99] : List Word).length ≤ Config.int64Max + 1 := by decide

theorem witness_CommandsKeepTheInvariant :
    (vm [104, 1, 99]).Inv ∧
    (performed (.run 2) (vm [104, 1, 99])).isSome = true ∧
    (performed (.memWrite maxWord 5) (vm [104, 1, 99])).isSome = true := by decide

theorem witness_CommandsWriteOnlyTheirColumns :
    (performed (.patchInstructionAt 0) (vm [1105])).isSome = true ∧ VmCommand.patchInstructionAt 0 ≠ .step ∧
    (performed (.addInput 5) (vm [1105])).isSome = true ∧ (performed .popOutput (vm [1105])).isSome = true := by decide

theorem witness_CloneCopiesTheWholeState :
    twoVms.Inv ∧ twoVms.find 1 = some ⟨vm [104, 1, 99], false⟩ := by decide

theorem witness_CommandsOnOneInstanceAreInvisibleToOthers :
    ((drive twoVms [.on 0 .step]).isSome = true ∧ twoVms.find 1 = some ⟨vm [104, 1, 99], false⟩ ∧
      Command.on 0 .step ≠ .clone 1 ∧ Command.on 0 .step ≠ .dump 1 ∧ Command.on 0 .step ≠ .destroy 1) ∧
    ((0 : Nat) ≠ 1 ∧ twoVms.find 0 = twoVms.find 1 ∧ (drive twoVms [.on 0 .step, .on 1 .step]).isSome = true) := by decide

theorem witness_CommandsKeepTheWorldGood :
    World.empty.Inv ∧ twoVms.Inv ∧ (drive twoVms [.clone 0]).isSome = true := by decide

theorem witness_DestroyedHandlesAreRefused :
    twoVms.find 0 = some ⟨vm [104, 1, 99], false⟩ ∧ twoVms.find 2 = none ∧
    ((twoVms.remove 0).find 0 = none ∧ 0 < (twoVms.remove 0).nextHandle ∧
      (drive (twoVms.remove 0) [.create]).isSome = true) := by decide

/-- A text of two items with blanks and signs, as the format has it, and a tape at both ends of `Int64`. -/
theorem witness_ProgramTextIsReadAsATape :
    ItemDenotes [' ', '-', '7', '\t'] (-7) ∧ ItemDenotes ['+', '4', '2'] 42 ∧
    ([minWord, maxWord] : List Word) ≠ [] ∧
    renderTape [0, -7, 42] = ['0', ',', '-', '7', ',', '4', '2'] := by
  exact ⟨⟨[' '], ['-'], ['7'], ['\t'], rfl, by simp [isBlank], by simp [isBlank], by simp, by simp, .inl ⟨rfl, rfl⟩⟩,
    ⟨[], ['+'], ['4', '2'], [], rfl, by simp, by simp, by simp, by simp, .inr ⟨.inr rfl, rfl⟩⟩, by decide, by decide⟩

theorem witness_CreateMakesANewResetInstance : twoVms.Inv ∧ World.empty.Inv := by decide

theorem witness_DumpChangesNoState : twoVms.find 1 = some ⟨vm [104, 1, 99], false⟩ := by decide

end Sys2Proof.Tests
end

section
/-! PROOF. What a step can do, said once for all ten instructions in the terms of the table of `40_engine.md` R117
(`State.GoesTo`, `State.Stores`): it changes nothing but the status, or it completes its instruction. -/

namespace Sys2Proof.Machine

/-- The column `E` of `40_engine.md` R117 as a relation: `u` is the state before the instruction with the instruction's
effect in it, `pc` and `status` not yet written. -/
inductive State.Effect (s : State) : Instr → State → Prop where
  | store {i : Instr} {d : Nat} {v : Word} (hs : s.Stores i d v) (hi : ∀ dst, i ≠ .input dst) :
      State.Effect s i (s.store d v)
  | input {dst : Operand} {d : Nat} {v : Word} {rest : List Word} (hd : adr s dst = .ok d)
      (hq : s.inputQueue = v :: rest) : State.Effect s (.input dst) ((s.setInputQueue rest).store d v)
  | output {a : Operand} {x : Word} (hx : val s a = .ok x) : State.Effect s (.output a) (s.pushOutput x)
  | jumpIfTrue (a b : Operand) : State.Effect s (.jumpIfTrue a b) s
  | jumpIfFalse (a b : Operand) : State.Effect s (.jumpIfFalse a b) s
  | adjustRelativeBase {a : Operand} {x : Word} (hx : val s a = .ok x) :
      State.Effect s (.adjustRelativeBase a) (s.setRb (wrap64 (s.rb.toInt + x.toInt)))

/-- `t` is the state after the instruction has been committed: its effect, and the `pc` it goes to (R120). -/
def State.Completes (s : State) (i : Instr) (t : State) : Prop :=
  ∃ (z : Int) (u : State), s.GoesTo i z ∧ LegalAddr z ∧ s.Effect i u ∧ t = u.advance z.toNat

/-- Nothing but the status changed, or the instruction completed. -/
def State.Ends (s : State) (i : Instr) (t : State) : Prop := t = { s with status := t.status } ∨ s.Completes i t

theorem State.ends_raise (s : State) (i : Instr) (c : Condition) : s.Ends i (s.raise c) := .inl rfl

/-! ### The truth values of the table -/

theorem lessThanBit_eq_ite (x y : Word) : lessThanBit x y = if x.toInt < y.toInt then 1 else 0 := by
  simp [lessThanBit, truthWord]

theorem equalsBit_eq_ite (x y : Word) : equalsBit x y = if x.toInt = y.toInt then 1 else 0 := by
  simp [equalsBit, truthWord, BitVec.toInt_inj]

theorem isZero_iff (x : Word) : isZero x = true ↔ x.toInt = 0 := by
  simp [isZero, ← BitVec.toInt_inj]

/-! ### Every instruction -/

/-- A three-parameter instruction whose table row stores `f x y` and goes on by 4. -/
theorem aluStep_ends {f : Word → Word → Word} {i : Instr} {a b dst : Operand} {s t : State}
    (hi : ∀ o, i ≠ .input o) (hz : s.GoesTo i (s.pc + 4))
    (hs : ∀ d x y, adr s dst = .ok d → val s a = .ok x → val s b = .ok y → s.Stores i d (f x y))
    (h : aluStep f a b dst s = .next t) : s.Ends i t := by
  rcases aluStep_next h with ⟨c, rfl⟩ | ⟨d, x, y, hd, hx, hy, hl, rfl⟩
  · exact s.ends_raise i c
  · exact .inr ⟨_, _, hz, hl, .store (hs d x y hd hx hy) hi, rfl⟩

/-- A jump whose table row goes where `taken` says. -/
theorem jumpStep_ends {taken : Bool → Bool} {i : Instr} {a b : Operand} {s t : State} (he : s.Effect i s)
    (hz : ∀ x y, val s a = .ok x → val s b = .ok y →
      s.GoesTo i (if taken (isZero x) then y.toInt else (s.pc : Int) + 3))
    (h : jumpStep taken a b s = .next t) : s.Ends i t := by
  rcases jumpStep_next h with ⟨c, rfl⟩ | ⟨x, y, hx, hy, hl, rfl⟩
  · exact s.ends_raise i c
  · exact .inr ⟨_, _, hz x y hx hy, hl, he, rfl⟩

theorem execInput_ends {dst : Operand} {s t : State} (h : execInput dst s = .next t) : s.Ends (.input dst) t := by
  rcases execInput_next h with ⟨c, rfl⟩ | ⟨v, rest, d, hq, hd, hl, rfl⟩
  · exact s.ends_raise _ c
  · exact .inr ⟨_, _, rfl, hl, .input hd hq, rfl⟩

theorem execOutput_ends {a : Operand} {s t : State} (h : execOutput a s = .next t) : s.Ends (.output a) t := by
  rcases execOutput_next h with ⟨c, rfl⟩ | ⟨x, hx, hl, rfl⟩
  · exact s.ends_raise _ c
  · exact .inr ⟨_, _, rfl, hl, .output hx, rfl⟩

theorem execAdjustRelativeBase_ends {a : Operand} {s t : State} (h : execAdjustRelativeBase a s = .next t) :
    s.Ends (.adjustRelativeBase a) t := by
  rcases execAdjustRelativeBase_next h with ⟨c, rfl⟩ | ⟨x, hx, hl, rfl⟩
  · exact s.ends_raise _ c
  · exact .inr ⟨_, _, rfl, hl, .adjustRelativeBase hx, rfl⟩

theorem execHalt_ends {s t : State} (h : execHalt s = .next t) : s.Ends .halt t := by
  cases h
  exact .inl rfl

/-- Whatever the instruction: it changes only the status, or it completes as its row of the table says. -/
theorem exec_ends {i : Instr} {s t : State} (h : exec i s = .next t) : s.Ends i t := by
  cases i with
  | add a b dst => exact aluStep_ends nofun rfl (fun _ x y hd hx hy => ⟨hd, x, y, hx, hy, rfl⟩) h
  | mul a b dst => exact aluStep_ends nofun rfl (fun _ x y hd hx hy => ⟨hd, x, y, hx, hy, rfl⟩) h
  | lessThan a b dst =>
    exact aluStep_ends nofun rfl (fun _ x y hd hx hy => ⟨hd, x, y, hx, hy, lessThanBit_eq_ite x y⟩) h
  | equals a b dst =>
    exact aluStep_ends nofun rfl (fun _ x y hd hx hy => ⟨hd, x, y, hx, hy, equalsBit_eq_ite x y⟩) h
  | jumpIfTrue a b =>
    exact jumpStep_ends (.jumpIfTrue a b) (fun x y hx hy => ⟨x, y, hx, hy, by simp [← isZero_iff]⟩) h
  | jumpIfFalse a b =>
    exact jumpStep_ends (taken := id) (.jumpIfFalse a b) (fun x y hx hy => ⟨x, y, hx, hy, by simp [← isZero_iff]⟩) h
  | input dst => exact execInput_ends h
  | output a => exact execOutput_ends h
  | adjustRelativeBase a => exact execAdjustRelativeBase_ends h
  | halt => exact execHalt_ends h

/-- What a step can do: change only the status, or complete the instruction it fetched. -/
theorem step_ends {s t : State} (h : step s = .next t) :
    t = { s with status := t.status } ∨ ∃ i, fetchInstr s = .instr i ∧ s.Completes i t := by
  rcases step_cases h with ⟨-, rfl⟩ | ⟨c, -, rfl⟩ | ⟨i, hf, he⟩
  · exact .inl rfl
  · exact .inl rfl
  · exact (exec_ends he).imp_right fun hc => ⟨i, hf, hc⟩

/-! ### What the table says of each component -/

/-- A store goes to the address of the instruction's write parameter. -/
theorem State.Stores.adr_dst {s : State} {i : Instr} {d : Nat} {v : Word} (h : s.Stores i d v) :
    ∃ dst, i.dst? = some dst ∧ adr s dst = .ok d := by
  cases i with
  | add a b dst => exact ⟨dst, rfl, h.1⟩
  | mul a b dst => exact ⟨dst, rfl, h.1⟩
  | input dst => exact ⟨dst, rfl, h.1⟩
  | lessThan a b dst => exact ⟨dst, rfl, h.1⟩
  | equals a b dst => exact ⟨dst, rfl, h.1⟩
  | output | jumpIfTrue | jumpIfFalse | adjustRelativeBase | halt => exact h.elim

/-- The instruction goes on to the next one, or it is a jump. -/
theorem State.GoesTo.next_or_jump {s : State} {i : Instr} {z : Int} (h : s.GoesTo i z) :
    z = s.pc + 1 + i.arity ∨ ∃ a b, i = .jumpIfTrue a b ∨ i = .jumpIfFalse a b := by
  cases i with
  | jumpIfTrue a b => exact .inr ⟨a, b, .inl rfl⟩
  | jumpIfFalse a b => exact .inr ⟨a, b, .inr rfl⟩
  | halt => exact h.elim
  | add | mul | lessThan | equals | input | output | adjustRelativeBase =>
    refine .inl (h.trans ?_)
    simp only [Instr.arity, Instr.operands, List.length_cons, List.length_nil]
    omega

theorem State.Effect.memory {s u : State} {i : Instr} (h : s.Effect i u) :
    u.memory = s.memory ∨ ∃ d v, s.Stores i d v ∧ u.memory = s.memory.write d v := by
  cases h with
  | store hs => exact .inr ⟨_, _, hs, rfl⟩
  | input hd hq => exact .inr ⟨_, _, ⟨hd, by simp [hq]⟩, rfl⟩
  | output | jumpIfTrue | jumpIfFalse | adjustRelativeBase => exact .inl rfl

theorem State.Effect.rb {s u : State} {i : Instr} (h : s.Effect i u) :
    u.rb = s.rb ∨ ∃ a, i = .adjustRelativeBase a := by
  cases h with
  | adjustRelativeBase => exact .inr ⟨_, rfl⟩
  | store | input | output | jumpIfTrue | jumpIfFalse => exact .inl rfl

theorem State.Effect.outputQueue {s u : State} {i : Instr} (h : s.Effect i u) :
    u.outputQueue = s.outputQueue ∨ ∃ a, i = .output a := by
  cases h with
  | output => exact .inr ⟨_, rfl⟩
  | store | input | jumpIfTrue | jumpIfFalse | adjustRelativeBase => exact .inl rfl

theorem State.Effect.inputQueue {s u : State} {i : Instr} (h : s.Effect i u) :
    u.inputQueue = s.inputQueue ∨ ∃ dst, i = .input dst := by
  cases h with
  | input => exact .inr ⟨_, rfl⟩
  | store | output | jumpIfTrue | jumpIfFalse | adjustRelativeBase => exact .inl rfl

end Sys2Proof.Machine
end

section
/-! PROOF. The invariant of a state and of the table of live handles, over steps, runs and commands. -/

namespace Sys2Proof.Machine

/-! ### One machine -/

/-- A cell written at a legal address. -/
theorem State.Inv.store {s : State} {a : Nat} (v : Word) (hs : s.Inv) (ha : a ≤ Config.int64Max) : (s.store a v).Inv :=
  ⟨Memory.wf_write v hs.1 ha, hs.2⟩

/-- Every effect keeps the canonical form: a store goes to the address of an operand, which is legal. -/
theorem State.Effect.memory_wf {s u : State} {i : Instr} (h : s.Effect i u) (hs : s.memory.wf = true) :
    u.memory.wf = true := by
  rcases h.memory with hm | ⟨d, v, hst, hm⟩ <;> rw [hm]
  · exact hs
  · obtain ⟨dst, -, hd⟩ := hst.adr_dst
    exact Memory.wf_write v hs (adr_le hd)

theorem step_inv {s t : State} (hs : s.Inv) (h : step s = .next t) : t.Inv := by
  rcases step_ends h with ht | ⟨i, -, z, u, -, hl, he, rfl⟩
  · rw [ht]
    exact hs
  · exact ⟨he.memory_wf hs.1, hl.toNat_le⟩

/-- Settles O15: a step that completes stores at a legal address and commits a legal `pc`; any other leaves both. -/
theorem stepKeepsTheInvariant : Obligations.StepKeepsTheInvariant :=
  fun _ _ hs h => step_inv hs h

theorem State.run_inv {fuel : Nat} {s t : State} (hs : s.Inv) (h : State.run fuel s = some t) : t.Inv := by
  induction fuel generalizing s with
  | zero => cases h
  | succ fuel ih =>
    obtain ⟨u, hstep, ⟨-, hrun⟩ | ⟨-, rfl⟩⟩ := State.run_some h
    · exact ih (step_inv hs hstep) hrun
    · exact step_inv hs hstep

theorem State.Inv.load {s : State} {tape : List Word} (hs : s.Inv) (h : tape.length ≤ Config.int64Max + 1) :
    (s.load tape).Inv :=
  ⟨Memory.wf_writeFrom tape Memory.wf_nil (by omega), hs.2⟩

theorem State.Inv.popOutput {s : State} (hs : s.Inv) : s.popOutput.2.Inv := by
  unfold State.popOutput
  split <;> exact hs

theorem State.Inv.memWrite {s t : State} {a v : Word} (hs : s.Inv) (h : s.memWrite a v = .ok t) : t.Inv := by
  unfold State.memWrite at h
  split at h
  · next d hd =>
    cases h
    obtain ⟨hl, rfl⟩ := toAddr_ok_iff.mp hd
    exact hs.store v hl.toNat_le
  · cases h

theorem State.perform_inv {c : VmCommand} {fresh : Bool} {s t : State} {r : Reply} (hs : s.Inv)
    (h : State.perform c fresh s = .next (t, r)) : t.Inv := by
  cases c with
  | addInput | pendingInput | pendingOutput =>
    cases h
    exact hs
  | popOutput =>
    cases h
    exact hs.popOutput
  | load tape =>
    simp only [State.perform] at h
    split at h
    · split at h
      · next hlen =>
        cases h
        exact hs.load hlen
      · cases h
    · cases h
  | step =>
    simp only [State.perform] at h
    split at h
    · next u hu =>
      cases h
      exact step_inv hs hu
    · cases h
    · cases h
  | run fuel =>
    simp only [State.perform] at h
    split at h
    · next u hu =>
      cases h
      exact State.run_inv hs hu
    · cases h
  | memRead a =>
    simp only [State.perform] at h
    split at h <;> cases h <;> exact hs
  | memWrite a v =>
    simp only [State.perform] at h
    split at h
    · next u hu =>
      cases h
      exact hs.memWrite hu
    · cases h
      exact hs
  | patchInstructionAt a =>
    simp only [State.perform] at h
    split at h
    · cases h
      exact hs
    · next d hd =>
      obtain ⟨hl, rfl⟩ := toAddr_ok_iff.mp hd
      split at h
      · next w _ =>
        cases h
        exact hs.store w hl.toNat_le
      · cases h

/-- Settles O52: by the command; a `run` by induction on its steps. -/
theorem commandsKeepTheInvariant : Obligations.CommandsKeepTheInvariant :=
  fun _ _ _ _ _ hs h => State.perform_inv hs h

/-! ### The table of live handles -/

theorem World.Inv.state_inv {w : World} (hw : w.Inv) {h : Nat} {vm : Vm} (hf : w.find h = some vm) : vm.state.Inv :=
  (hw.2 _ (lookupVm_mem hf)).2

theorem World.Inv.put {w : World} (hw : w.Inv) (h : Nat) {vm : Vm} (hvm : vm.state.Inv) : (w.put h vm).Inv := by
  obtain ⟨hnodup, hlive⟩ := hw
  have hkeys : (w.put h vm).live.map (·.1) = w.live.map (·.1) := by
    simp only [World.put, List.map_map]
    refine List.map_congr_left fun e _ => ?_
    simp only [Function.comp]
    split <;> rfl
  refine ⟨hkeys ▸ hnodup, fun e he => ?_⟩
  obtain ⟨d, hd, rfl⟩ := List.mem_map.mp he
  obtain ⟨hlt, hinv⟩ := hlive d hd
  split
  · exact ⟨hlt, hvm⟩
  · exact ⟨hlt, hinv⟩

/-- The new handle is above every live one, so the handles stay distinct. -/
theorem World.Inv.add {w : World} (hw : w.Inv) {vm : Vm} (hvm : vm.state.Inv) : (w.add vm).Inv := by
  obtain ⟨hnodup, hlive⟩ := hw
  have hfresh : ∀ k ∈ w.live.map (·.1), k < w.nextHandle := fun k hk => by
    obtain ⟨e, he, rfl⟩ := List.mem_map.mp hk
    exact (hlive e he).1
  constructor
  · simp only [World.add, List.map_append, List.map_cons, List.map_nil]
    refine List.nodup_append.mpr ⟨hnodup, List.nodup_singleton _, fun k hk l hl => ?_⟩
    rw [List.mem_singleton.mp hl]
    exact Nat.ne_of_lt (hfresh k hk)
  · intro e he
    rcases List.mem_append.mp he with he | he
    · obtain ⟨hlt, hinv⟩ := hlive e he
      exact ⟨Nat.lt_succ_of_lt hlt, hinv⟩
    · rw [List.mem_singleton.mp he]
      exact ⟨Nat.lt_succ_self _, hvm⟩

theorem World.Inv.remove {w : World} (hw : w.Inv) (h : Nat) : (w.remove h).Inv :=
  ⟨hw.1.sublist (List.filter_sublist.map _), fun e he => hw.2 e (List.mem_of_mem_filter he)⟩

theorem World.command_inv {w v : World} {c : Command} {r : Reply} (hw : w.Inv) (h : w.command c = .next (v, r)) :
    v.Inv := by
  cases c with
  | create =>
    cases h
    exact hw.add ⟨State.reset_memory_wf, Nat.zero_le _⟩
  | on g c =>
    obtain ⟨vm, t, hf, hp, rfl⟩ := World.command_on_next h
    exact hw.put g (State.perform_inv (hw.state_inv hf) hp)
  | clone g =>
    simp only [World.command] at h
    split at h
    · cases h
    · next vm hf =>
      cases h
      have hvm := hw.state_inv hf
      refine (hw.put g ?_).add ?_ <;> exact hvm
  | dump g =>
    simp only [World.command] at h
    split at h
    · cases h
    · next vm hf =>
      cases h
      have hvm := hw.state_inv hf
      exact hw.put g (vm := ⟨vm.state, false⟩) hvm
  | destroy g =>
    simp only [World.command] at h
    split at h
    · cases h
    · cases h
      exact hw.remove g

/-- Settles O56: by the command; the table is changed by `put`, `add` and `remove` only, and each keeps it good. -/
theorem commandsKeepTheWorldGood : Obligations.CommandsKeepTheWorldGood :=
  fun _ _ _ _ hw h => World.command_inv hw h

end Sys2Proof.Machine
end

section
/-! PROOF. Which step may change which component, the queues over a run, halt, and that a canonical memory is
determined by what it reads as. -/

namespace Sys2Proof.Machine

/-! ### Which step changes what -/

/-- A component that differs after a step is one the completed instruction's effect or its new `pc` changed. -/
theorem step_completes_of_ne {α : Type} (f : State → α) (hf : ∀ (s : State) st, f { s with status := st } = f s)
    {s t : State} (h : step s = .next t) (hne : f t ≠ f s) : ∃ i, fetchInstr s = .instr i ∧ s.Completes i t := by
  rcases step_ends h with ht | hc
  · exact absurd (by rw [ht, hf]) hne
  · exact hc

/-- Settles O23: a component changes only where the instruction fetched completes, and then as the table says. -/
theorem stepWritesOnlyWhatItsInstructionWrites : Obligations.StepWritesOnlyWhatItsInstructionWrites := by
  intro s t h
  refine ⟨fun hne => ?_, fun hne => ?_, fun hne => ?_, fun hne => ?_, fun hne => ?_⟩
  · obtain ⟨i, hf, z, u, -, -, he, rfl⟩ := step_completes_of_ne State.rb (fun _ _ => rfl) h hne
    obtain ⟨a, rfl⟩ := he.rb.resolve_left hne
    exact ⟨a, hf⟩
  · obtain ⟨i, hf, z, u, -, -, he, rfl⟩ := step_completes_of_ne State.outputQueue (fun _ _ => rfl) h hne
    obtain ⟨a, rfl⟩ := he.outputQueue.resolve_left hne
    exact ⟨a, hf⟩
  · obtain ⟨i, hf, z, u, -, -, he, rfl⟩ := step_completes_of_ne State.inputQueue (fun _ _ => rfl) h hne
    obtain ⟨dst, rfl⟩ := he.inputQueue.resolve_left hne
    exact ⟨dst, hf⟩
  · obtain ⟨i, hf, z, u, -, -, he, rfl⟩ := step_completes_of_ne State.memory (fun _ _ => rfl) h hne
    obtain ⟨d, v, hs, -⟩ := he.memory.resolve_left hne
    obtain ⟨dst, hdst, -⟩ := hs.adr_dst
    exact ⟨i, dst, hf, hdst⟩
  · obtain ⟨i, hf, z, u, hz, -, -, rfl⟩ := step_completes_of_ne State.pc (fun _ _ => rfl) h hne
    refine ⟨i, hf, hz.next_or_jump.imp_left fun hnext => ?_⟩
    rw [State.advance_pc, hnext]
    omega

/-! ### The queues -/

/-- The FIFO law between two states: output values were appended, input values taken from the front, `n` at most in all
(`45_host_commands.md` R219). -/
def State.QueuesMove (s t : State) (n : Nat) : Prop :=
  ∃ outs ins : List Word, t.outputQueue = s.outputQueue ++ outs ∧ s.inputQueue = ins ++ t.inputQueue ∧
    outs.length + ins.length ≤ n

theorem State.QueuesMove.of_eq {s t : State} (n : Nat) (ho : t.outputQueue = s.outputQueue)
    (hi : t.inputQueue = s.inputQueue) : s.QueuesMove t n :=
  ⟨[], [], by simp [ho], by simp [hi], Nat.zero_le _⟩

theorem State.QueuesMove.trans {s t u : State} {m n : Nat} (h : s.QueuesMove t m) (k : t.QueuesMove u n) :
    s.QueuesMove u (m + n) := by
  obtain ⟨outs, ins, ho, hi, hlen⟩ := h
  obtain ⟨outs', ins', ho', hi', hlen'⟩ := k
  refine ⟨outs ++ outs', ins ++ ins', ?_, ?_, ?_⟩
  · rw [ho', ho, List.append_assoc]
  · rw [hi, hi', List.append_assoc]
  · simp only [List.length_append]
    omega

/-- An effect moves one value at most: an input takes one, an output appends one. -/
theorem State.Effect.queuesMove {s u : State} {i : Instr} (h : s.Effect i u) : s.QueuesMove u 1 := by
  cases h with
  | input hd hq => exact ⟨[], [_], (List.append_nil _).symm, hq, Nat.le_refl 1⟩
  | output hx => exact ⟨[_], [], rfl, rfl, Nat.le_refl 1⟩
  | store | jumpIfTrue | jumpIfFalse | adjustRelativeBase => exact .of_eq 1 rfl rfl

theorem step_queuesMove {s t : State} (h : step s = .next t) : s.QueuesMove t 1 := by
  rcases step_ends h with ht | ⟨i, -, z, u, -, -, he, rfl⟩
  · exact .of_eq 1 (by rw [ht]) (by rw [ht])
  · exact he.queuesMove

theorem core_run_queuesMove {k : Nat} {s t : State} (h : Sys2Proof.core.run k s = .next t) : s.QueuesMove t k := by
  induction k generalizing s with
  | zero =>
    cases h
    exact .of_eq 0 rfl rfl
  | succ k ih =>
    obtain ⟨u, hstep, hrun⟩ := core_run_next h
    exact Nat.add_comm 1 k ▸ (step_queuesMove hstep).trans (ih hrun)

/-- Settles O50, by induction on the number of steps. -/
theorem queuesAreFifoOverEveryRun : Obligations.QueuesAreFifoOverEveryRun :=
  fun _ _ _ h => core_run_queuesMove h

/-! ### halt -/

/-- A non-negative word ending in 99 decodes to halt, whatever its other digits (R93). -/
theorem decodeWord_of_halt {w : Word} (h0 : 0 ≤ w.toInt) (h : w.toNat % 100 = 99) :
    decodeWord w = .ok ⟨.halt, .position, .position, .position⟩ := by
  have hop : Opcode.ofNumber? (opcodeField w.toNat) = some .halt := by
    rw [opcodeField, h]
    rfl
  rw [decodeWord, if_neg (Int.not_lt.mpr h0), hop]
  rfl

theorem step_of_halt_word {s : State} (ha : s.Active) (hp : s.pc ≤ Config.int64Max)
    (h0 : 0 ≤ (s.memory.read s.pc).toInt) (h : (s.memory.read s.pc).toNat % 100 = 99) :
    step s = .next { s with status := .halted } := by
  obtain ⟨-, -, -, hexec⟩ := State.fetchesFrom_of_read ha fun _ => rfl
  exact (hexec _ (decodeWord_of_halt h0 h) hp).2

theorem step_of_terminal {s : State} (h : s.status.terminal = true) : step s = .next s :=
  step_of_stopped (if_pos h)

theorem perform_memRead_of_nonneg {a : Word} (h : 0 ≤ a.toInt) (fresh : Bool) (s : State) :
    State.perform (.memRead a) fresh s = .next (s, .cell (s.memory.read a.toNat)) := by
  obtain ⟨hl, ha⟩ := legalAddr_word h
  have hr : s.memRead a = .ok (s.memory.read a.toNat) := by
    rw [State.memRead, toAddr_ok_iff.mpr ⟨hl, ha.symm⟩]
    rfl
  simp only [State.perform, hr]

theorem perform_popOutput (fresh : Bool) (s : State) :
    State.perform .popOutput fresh s =
      .next ({ s with outputQueue := s.outputQueue.tail }, .output s.outputQueue.head?) := by
  cases s with
  | mk memory pc rb inputQueue outputQueue status => cases outputQueue <;> rfl

/-- Settles O37. -/
theorem haltStopsAndIsSticky : Obligations.HaltStopsAndIsSticky := by
  refine ⟨fun _ => rfl, rfl, fun _ => step_of_halt_word, fun s m hs => ?_, fun s fresh _ => ⟨fun a h => ?_, ?_⟩⟩
  · exact step_of_terminal (by simp [hs, Status.terminal])
  · exact perform_memRead_of_nonneg h fresh s
  · exact perform_popOutput fresh s

/-! ### Canonical memories -/

/-- Below its first address a canonical memory reads 0. -/
theorem Memory.read_eq_zero_of_lt {a b : Nat} {v : Word} {m : Memory} (h : Memory.wf ((a, v) :: m) = true)
    (hb : b < a) : Memory.read ((a, v) :: m) b = 0 := by
  obtain ⟨-, -, hlt, -⟩ := Memory.wf_cons.mp h
  refine Memory.read_eq_zero fun c hc => ?_
  rcases List.mem_cons.mp hc with rfl | hc
  · exact Nat.ne_of_gt hb
  · exact Nat.ne_of_gt (Nat.lt_trans hb (hlt c hc))

@[simp] theorem Memory.read_cons_self (a : Nat) (v : Word) (m : Memory) : Memory.read ((a, v) :: m) a = v := if_pos rfl

/-- The first address of a canonical memory is the least that does not read 0. -/
theorem Memory.head_le_of_read_ne_zero {a b : Nat} {v : Word} {m : Memory} (h : Memory.wf ((a, v) :: m) = true)
    (hb : Memory.read ((a, v) :: m) b ≠ 0) : a ≤ b :=
  Nat.le_of_not_lt fun hlt => hb (Memory.read_eq_zero_of_lt h hlt)

/-- Two canonical memories with the same first entry that read alike have tails that read alike. -/
theorem Memory.read_tail_congr {a : Nat} {v : Word} {m n : Memory} (hm : Memory.wf ((a, v) :: m) = true)
    (hn : Memory.wf ((a, v) :: n) = true) (h : ∀ b, Memory.read ((a, v) :: m) b = Memory.read ((a, v) :: n) b)
    (b : Nat) : m.read b = n.read b := by
  obtain ⟨-, -, hltm, -⟩ := Memory.wf_cons.mp hm
  obtain ⟨-, -, hltn, -⟩ := Memory.wf_cons.mp hn
  by_cases hb : a = b
  · subst hb
    rw [Memory.read_eq_zero fun c hc => Nat.ne_of_gt (hltm c hc),
      Memory.read_eq_zero fun c hc => Nat.ne_of_gt (hltn c hc)]
  · simpa [Memory.read, hb] using h b

theorem Memory.eq_of_read_eq {m n : Memory} (hm : m.wf = true) (hn : n.wf = true) (h : ∀ a, m.read a = n.read a) :
    m = n := by
  induction m generalizing n with
  | nil =>
    cases n with
    | nil => rfl
    | cons d n =>
      obtain ⟨b, w⟩ := d
      obtain ⟨-, hw, -, -⟩ := Memory.wf_cons.mp hn
      exact absurd (by simpa using (h b).symm) hw
  | cons c m ih =>
    obtain ⟨a, v⟩ := c
    obtain ⟨-, hv, -, hm'⟩ := Memory.wf_cons.mp hm
    cases n with
    | nil => exact absurd (by simpa using h a) hv
    | cons d n =>
      obtain ⟨b, w⟩ := d
      obtain ⟨-, hw, -, hn'⟩ := Memory.wf_cons.mp hn
      have hab : a = b := Nat.le_antisymm
        (Memory.head_le_of_read_ne_zero hm (by simpa [h b] using hw))
        (Memory.head_le_of_read_ne_zero hn (by simpa [← h a] using hv))
      subst hab
      have hvw : v = w := by simpa using h a
      subst hvw
      rw [ih hm' hn' (Memory.read_tail_congr hm hn h)]

/-- Settles O43, by induction on the list: the first entries are the least address not reading 0 and its value. -/
theorem canonicalMemoriesThatReadAlikeAreEqual : Obligations.CanonicalMemoriesThatReadAlikeAreEqual :=
  fun _ _ hm hn h => Memory.eq_of_read_eq hm hn h

end Sys2Proof.Machine
end

section
/-! PROOF. Memory: the frame of each instruction, reading after any list of writes, the host's writes, and that the next
fetch sees what was stored. -/

namespace Sys2Proof.Machine

/-! ### Frames -/

/-- A component that neither the commit nor a raised condition writes is as before, or as the effect leaves it. -/
theorem exec_component {α : Type} (f : State → α) (hf : ∀ (s : State) pc st, f { s with pc := pc, status := st } = f s)
    {i : Instr} {s t : State} (h : exec i s = .next t) : f t = f s ∨ ∃ u, s.Effect i u ∧ f t = f u := by
  rcases exec_ends h with ht | ⟨z, u, -, -, he, rfl⟩
  · exact .inl (by rw [ht, hf])
  · exact .inr ⟨u, he, hf u _ _⟩

theorem exec_rb {i : Instr} {s t : State} (h : exec i s = .next t) (hi : ∀ a, i ≠ .adjustRelativeBase a) :
    t.rb = s.rb := by
  rcases exec_component State.rb (fun _ _ _ => rfl) h with ht | ⟨u, he, ht⟩
  · exact ht
  · exact ht.trans (he.rb.resolve_right fun ⟨a, ha⟩ => hi a ha)

theorem exec_outputQueue {i : Instr} {s t : State} (h : exec i s = .next t) (hi : ∀ a, i ≠ .output a) :
    t.outputQueue = s.outputQueue := by
  rcases exec_component State.outputQueue (fun _ _ _ => rfl) h with ht | ⟨u, he, ht⟩
  · exact ht
  · exact ht.trans (he.outputQueue.resolve_right fun ⟨a, ha⟩ => hi a ha)

theorem exec_inputQueue {i : Instr} {s t : State} (h : exec i s = .next t) (hi : ∀ dst, i ≠ .input dst) :
    t.inputQueue = s.inputQueue := by
  rcases exec_component State.inputQueue (fun _ _ _ => rfl) h with ht | ⟨u, he, ht⟩
  · exact ht
  · exact ht.trans (he.inputQueue.resolve_right fun ⟨dst, hd⟩ => hi dst hd)

/-- An effect takes at most the front value from the input queue. -/
theorem State.Effect.inputQueue_eq_or_tail {s u : State} {i : Instr} (h : s.Effect i u) :
    u.inputQueue = s.inputQueue ∨ ∃ v, s.inputQueue = v :: u.inputQueue := by
  cases h with
  | input hd hq => exact .inr ⟨_, hq⟩
  | store | output | jumpIfTrue | jumpIfFalse | adjustRelativeBase => exact .inl rfl

theorem exec_inputQueue_eq_or_tail {i : Instr} {s t : State} (h : exec i s = .next t) :
    t.inputQueue = s.inputQueue ∨ ∃ v, s.inputQueue = v :: t.inputQueue := by
  rcases exec_component State.inputQueue (fun _ _ _ => rfl) h with ht | ⟨u, he, ht⟩
  · exact .inl ht
  · rw [ht]
    exact he.inputQueue_eq_or_tail

/-- The memory is as before, or has one cell written: the one the instruction's write parameter resolves to. -/
theorem exec_memory {i : Instr} {s t : State} (h : exec i s = .next t) :
    t.memory = s.memory ∨
    ∃ dst d v, i.dst? = some dst ∧ adr s dst = .ok d ∧ t.memory = s.memory.write d v := by
  rcases exec_component State.memory (fun _ _ _ => rfl) h with ht | ⟨u, he, ht⟩
  · exact .inl ht
  · rw [ht]
    refine he.memory.imp_right fun ⟨d, v, hs, hm⟩ => ?_
    obtain ⟨dst, hdst, hd⟩ := hs.adr_dst
    exact ⟨dst, d, v, hdst, hd, hm⟩

theorem exec_read_of_dst_none {i : Instr} {s t : State} (h : exec i s = .next t) (hi : i.dst? = none) (c : Nat) :
    t.memory.read c = s.memory.read c := by
  rcases exec_memory h with hm | ⟨dst, d, v, hdst, -⟩
  · rw [hm]
  · exact nomatch hi.symm.trans hdst

section
variable {i : Instr} {dst : Operand} {s t : State}

theorem exec_read_of_ne (h : exec i s = .next t) (hi : i.dst? = some dst) (d : Nat) (hd : adr s dst = .ok d) (c : Nat)
    (hc : c ≠ d) : t.memory.read c = s.memory.read c := by
  rcases exec_memory h with hm | ⟨dst', d', v, hdst, hd', hm⟩ <;> rw [hm]
  cases hi.symm.trans hdst
  cases hd.symm.trans hd'
  exact Memory.read_write_ne _ _ hc

theorem exec_read_of_unresolved (h : exec i s = .next t) (hi : i.dst? = some dst) (hd : ∀ d, adr s dst ≠ .ok d)
    (c : Nat) : t.memory.read c = s.memory.read c := by
  rcases exec_memory h with hm | ⟨dst', d', v, hdst, hd', -⟩
  · rw [hm]
  · cases hi.symm.trans hdst
    exact absurd hd' (hd d')

end

/-- Settles O30: none of the four is an instruction whose effect is on `rb` or a queue, and each has `dst` as its write
parameter. -/
theorem arithmeticFrame : Obligations.ArithmeticFrame := by
  rintro a b dst i s t (rfl | rfl | rfl | rfl) h <;>
  exact ⟨exec_rb h nofun, exec_inputQueue h nofun, exec_outputQueue h nofun, exec_read_of_ne h rfl,
    exec_read_of_unresolved h rfl⟩

/-- Settles O33. -/
theorem inputFrame : Obligations.InputFrame :=
  fun _ _ _ h => ⟨exec_rb h nofun, exec_outputQueue h nofun, exec_inputQueue_eq_or_tail h, exec_read_of_ne h rfl,
    exec_read_of_unresolved h rfl⟩

/-- Settles O39: none of the five has a write parameter. -/
theorem nonStoringFrames : Obligations.NonStoringFrames := by
  refine fun a b s t => ⟨fun h => ?_, fun h => ?_, ?_⟩
  · exact ⟨exec_rb h nofun, exec_inputQueue h nofun, exec_read_of_dst_none h rfl⟩
  · exact ⟨exec_inputQueue h nofun, exec_outputQueue h nofun, exec_read_of_dst_none h rfl⟩
  · rintro (h | h | h) <;>
    exact ⟨exec_rb h nofun, exec_inputQueue h nofun, exec_outputQueue h nofun, exec_read_of_dst_none h rfl⟩

/-! ### Reads after writes -/

/-- After any writes a cell reads as the last of them that went to it, or as before all of them. -/
theorem Memory.read_foldl_write (m : Memory) (ws : List (Nat × Word)) (a : Nat) :
    (ws.foldl (fun m w => Memory.write m w.1 w.2) m).read a =
      ((ws.reverse.find? fun w => w.1 == a).map (·.2)).getD (m.read a) := by
  induction ws using List.reverseRecOn with
  | nil => rfl
  | append_singleton ws w ih =>
    rw [List.foldl_concat, List.reverse_concat, Memory.read_write]
    by_cases hw : w.1 = a
    · rw [if_pos hw, List.find?_cons_of_pos (by simpa using hw)]
      rfl
    · rw [if_neg hw, List.find?_cons_of_neg (by simpa using hw), ih]

/-- Settles O42: the last write to the cell decides what it reads; `mem_read` answers in the state it was given. -/
theorem readGivesTheLastWrite : Obligations.ReadGivesTheLastWrite := by
  refine ⟨fun ws a => ?_, fun a fresh s => ?_⟩
  · rw [Memory.read_foldl_write]
    cases ws.reverse.find? fun w => w.1 == a <;> rfl
  · simp only [State.perform]
    split <;> exact ⟨_, rfl⟩

/-! ### The host's writes -/

/-- A non-negative cell is the address it says. -/
theorem toAddr_word_of_nonneg {a : Word} (h : 0 ≤ a.toInt) : toAddr a.toInt = .ok a.toNat := by
  obtain ⟨hl, ha⟩ := legalAddr_word h
  exact toAddr_ok_iff.mpr ⟨hl, ha.symm⟩

theorem toAddr_of_neg {z : Int} (h : z < 0) : toAddr z = .error .memoryError :=
  toAddr_error_iff.mpr ⟨fun hl => Int.not_le.mpr h hl.1, rfl⟩

theorem perform_memWrite_of_nonneg {a : Word} (h : 0 ≤ a.toInt) (v : Word) (fresh : Bool) (s : State) :
    State.perform (.memWrite a v) fresh s = .next (s.store a.toNat v, .ok) := by
  simp only [State.perform, State.memWrite, toAddr_word_of_nonneg h]

theorem perform_memWrite_of_neg {a : Word} (h : a.toInt < 0) (v : Word) (fresh : Bool) (s : State) :
    State.perform (.memWrite a v) fresh s = .next (s, .memoryError) := by
  simp only [State.perform, State.memWrite, toAddr_of_neg h]

/-- At a non-negative address holding a jump word, `patch_instruction_at` writes the inverted jump. -/
theorem perform_patchInstructionAt_of_jump {a w : Word} (h : 0 ≤ a.toInt) (fresh : Bool) {s : State}
    (hw : invertJump (s.memory.read a.toNat) = some w) :
    State.perform (.patchInstructionAt a) fresh s = .next (s.store a.toNat w, .ok) := by
  simp only [State.perform, toAddr_word_of_nonneg h, hw]

/-- Settles O48. -/
theorem memWriteWritesOneCell : Obligations.MemWriteWritesOneCell := by
  refine fun fresh s a v => ⟨fun h => ?_, fun h => perform_memWrite_of_neg h v fresh s⟩
  exact ⟨_, perform_memWrite_of_nonneg h v fresh s, Memory.read_write_self _ _ _,
    fun _ => Memory.read_write_ne _ _⟩

/-! ### The next fetch -/

/-- An operand with an address is not immediate. -/
theorem writable_of_adr {s : State} {o : Operand} {d : Nat} (h : adr s o = .ok d) : o.writable = true := by
  cases hm : o.mode with
  | position | relative => rw [Operand.writable, hm]
  | immediate =>
    rw [adr, hm] at h
    cases h

/-- With a value in the queue, its destination resolved and the next instruction in range, an input completes. -/
theorem execInput_completes {dst : Operand} {s : State} {d : Nat} {v : Word} {rest : List Word}
    (hd : adr s dst = .ok d) (hq : s.inputQueue = v :: rest) (hp : s.pc + 2 ≤ Config.int64Max) :
    execInput dst s = .next (((s.setInputQueue rest).store d v).advance (s.pc + 2)) := by
  simp only [execInput, writable_of_adr hd, hq, hd, orRaise_ok, if_true]
  exact commit_of_next hp

/-- An instruction that stores by its row of the table completes where the next instruction is in range. -/
theorem exec_of_stores {s : State} {i : Instr} {d : Nat} {v : Word} (h : s.Stores i d v)
    (hp : s.pc + 1 + i.arity ≤ Config.int64Max) :
    ∃ u : State, exec i s = .next (u.advance (s.pc + 1 + i.arity)) ∧ u.memory = s.memory.write d v := by
  cases i with
  | add a b dst =>
    obtain ⟨hd, x, y, hx, hy, rfl⟩ := h
    exact ⟨_, aluStep_completes hd hx hy hp, rfl⟩
  | mul a b dst =>
    obtain ⟨hd, x, y, hx, hy, rfl⟩ := h
    exact ⟨_, aluStep_completes hd hx hy hp, rfl⟩
  | lessThan a b dst =>
    obtain ⟨hd, x, y, hx, hy, rfl⟩ := h
    exact ⟨_, aluStep_completes hd hx hy hp, by rw [← lessThanBit_eq_ite]; rfl⟩
  | equals a b dst =>
    obtain ⟨hd, x, y, hx, hy, rfl⟩ := h
    exact ⟨_, aluStep_completes hd hx hy hp, by rw [← equalsBit_eq_ite]; rfl⟩
  | input dst =>
    obtain ⟨hd, hv⟩ := h
    obtain ⟨rest, hq⟩ := List.head?_eq_some_iff.mp hv
    exact ⟨_, execInput_completes hd hq hp, rfl⟩
  | output | jumpIfTrue | jumpIfFalse | adjustRelativeBase | halt => exact h.elim

/-- An active state whose memory has `v` written to cell `d` fetches `v` from there. -/
theorem State.fetchesFrom_of_write {t : State} {m : Memory} {d : Nat} {v : Word} (ha : t.Active)
    (hm : t.memory = m.write d v) : t.FetchesFrom fun c => if c = d then v else m.read c := by
  refine State.fetchesFrom_of_read ha fun c => ?_
  rw [hm, Memory.read_write]
  simp only [eq_comm]

/-- Settles O44: a completed store and the host's writes each leave an active state whose memory is the old one with one
cell written, and an active state fetches from what its memory reads as. -/
theorem storesAreSeenByTheNextFetch : Obligations.StoresAreSeenByTheNextFetch := by
  refine ⟨fun s i d v hf hs hp => ?_, fun s a w fresh ha h => ?_, fun s a w fresh ha h hw => ?_⟩
  · obtain ⟨u, he, hm⟩ := exec_of_stores hs hp
    exact ⟨_, (step_of_instr hf).trans he, rfl, rfl, State.fetchesFrom_of_write rfl hm⟩
  · exact ⟨_, perform_memWrite_of_nonneg h w fresh s, rfl, rfl, State.fetchesFrom_of_write ha rfl⟩
  · exact ⟨_, perform_patchInstructionAt_of_jump h fresh hw, rfl, rfl, State.fetchesFrom_of_write ha rfl⟩

end Sys2Proof.Machine
end

section
/-! PROOF. The decoder said once: which header, that is which operation and modes, a word decodes to, which words are
refused, and what a list of cells decodes to (`30_encoding.md` R80 to R93). -/

namespace Sys2Proof

/-! ### The table of R85, read backwards -/

/-- An opcode field selects the operation that has this number. -/
theorem Opcode.ofNumber?_eq_some_iff {n : Nat} {op : Opcode} : Opcode.ofNumber? n = some op ↔ op.number = n := by
  constructor
  · intro h
    simpa using List.find?_some h
  · rintro rfl
    cases op <;> rfl

theorem Opcode.arity_le (op : Opcode) : op.arity ≤ 3 := by cases op <;> decide

theorem Opcode.number_mem (op : Opcode) : op.number ∈ [1, 2, 3, 4, 5, 6, 7, 8, 9, 99] := by
  cases op <;> decide

/-- The operations of opcodes 1, 2, 7, 8 write their third parameter, that of opcode 3 its first (R85). -/
theorem Opcode.roles_write (op : Opcode) :
    (op.number ∈ [1, 2, 7, 8] → op.roles[2]? = some .write) ∧ (op.number = 3 → op.roles[0]? = some .write) := by
  cases op <;> decide

/-- A digit names the mode that has this digit (R84). -/
theorem Mode.ofDigit?_eq_some_iff {d : Nat} {m : Mode} : Mode.ofDigit? d = some m ↔ m.digit = d := by
  constructor
  · intro h
    unfold Mode.ofDigit? at h
    split at h <;> cases h <;> rfl
  · rintro rfl
    cases m <;> rfl

theorem Operand.writable_iff {o : Operand} : o.writable = true ↔ o.mode ≠ .immediate := by
  unfold Operand.writable
  cases o.mode <;> simp

/-! ### One word decoded -/

/-- The modes of the three parameters, `p_1` first. -/
def Header.modes (h : Header) : List Mode := [h.m1, h.m2, h.m3]

/-- The modes a parameter may have by its role: a read one any, a written one not immediate (R92), and position stands
for a parameter the operation does not have. -/
def Mode.allowedFor : Option Role → Mode → Bool
  | none, m => decide (m = .position)
  | some .read, _ => true
  | some .write, m => decide (m ≠ .immediate)

/-- The modes are allowed for the parameters of the operation. -/
def Header.legal (h : Header) : Bool :=
  h.m1.allowedFor h.op.roles[0]? && h.m2.allowedFor h.op.roles[1]? && h.m3.allowedFor h.op.roles[2]?

theorem Mode.allowedFor_some {role : Role} {m : Mode} :
    m.allowedFor (some role) = true ↔ (role = .write → m ≠ .immediate) := by
  cases role <;> simp [Mode.allowedFor]

/-- The mode of parameter `k + 1` is one its role allows, and its digit is read where the operation has the
parameter. -/
theorem paramMode_ok_iff {op : Opcode} {k w : Nat} {m : Mode} :
    paramMode op (k + 1) w = .ok m ↔
      m.allowedFor op.roles[k]? = true ∧ (k < op.arity → m.digit = modeField (k + 1) w) := by
  unfold paramMode
  rw [Nat.add_sub_cancel]
  cases hr : op.roles[k]? with
  | none =>
    have hk : ¬ k < op.arity := Nat.not_lt.mpr (List.getElem?_eq_none_iff.mp hr)
    simp [Mode.allowedFor, hk, eq_comm]
  | some role =>
    have hk : k < op.arity := (List.getElem?_eq_some_iff.mp hr).1
    rw [Mode.allowedFor_some]
    cases hd : Mode.ofDigit? (modeField (k + 1) w) with
    | none =>
      have hm : m.digit ≠ modeField (k + 1) w := fun e => by simp [Mode.ofDigit?_eq_some_iff.mpr e] at hd
      simp [hk, hm]
    | some n =>
      have hm : m.digit = modeField (k + 1) w ↔ n = m := by rw [← Mode.ofDigit?_eq_some_iff, hd, Option.some_inj]
      simp only [hm, hk, true_imp_iff]
      split
      · next hbad =>
        obtain ⟨rfl, rfl⟩ := hbad
        exact ⟨nofun, fun ⟨hw, e⟩ => absurd e.symm (hw rfl)⟩
      · next hok =>
        rw [Except.ok.injEq]
        exact ⟨fun e => ⟨e ▸ not_and.mp hok, e⟩, And.right⟩

/-- Whatever holds of the three modes at their places holds place by place. -/
theorem Header.forall_modes_iff {h : Header} {P : Nat → Mode → Prop} :
    (∀ k m, h.modes[k]? = some m → P k m) ↔ P 0 h.m1 ∧ P 1 h.m2 ∧ P 2 h.m3 := by
  constructor
  · exact fun hp => ⟨hp 0 _ rfl, hp 1 _ rfl, hp 2 _ rfl⟩
  · rintro ⟨h0, h1, h2⟩ k m hk
    match k with
    | 0 => exact Option.some.inj hk ▸ h0
    | 1 => exact Option.some.inj hk ▸ h1
    | 2 => exact Option.some.inj hk ▸ h2
    | k + 3 => cases hk

/-- A word decodes exactly where it is not negative, its opcode field selects the operation and R88's checks of the
three parameters give the modes. -/
theorem decodeWord_ok_iff {w : Word} {h : Header} :
    decodeWord w = .ok h ↔ 0 ≤ w.toInt ∧ h.op.number = w.toNat % 100 ∧
      ∀ k m, h.modes[k]? = some m → paramMode h.op (k + 1) w.toNat = .ok m := by
  rw [Header.forall_modes_iff, ← Int.not_lt, ← opcodeField, ← Opcode.ofNumber?_eq_some_iff]
  constructor
  · intro hd
    unfold decodeWord at hd
    split at hd
    · cases hd
    next h0 =>
    split at hd
    · cases hd
    next op hop =>
    split at hd
    · cases hd
    next m1 h1 =>
    split at hd
    · cases hd
    next m2 h2 =>
    split at hd
    · cases hd
    next m3 h3 =>
    cases hd
    exact ⟨h0, hop, h1, h2, h3⟩
  · rintro ⟨h0, hop, h1, h2, h3⟩
    simp only [decodeWord, if_neg h0, hop, h1, h2, h3]

/-- The word's two low digits are the number of the operation it decodes to (R82). -/
theorem decodeWord_number {w : Word} {h : Header} (hd : decodeWord w = .ok h) : h.op.number = w.toNat % 100 :=
  (decodeWord_ok_iff.mp hd).2.1

/-- A word decodes to no mode that its parameter's role does not allow. -/
theorem decodeWord_allowedFor {w : Word} {h : Header} (hd : decodeWord w = .ok h) {k : Nat} {m : Mode}
    (hm : h.modes[k]? = some m) : m.allowedFor h.op.roles[k]? = true :=
  (paramMode_ok_iff.mp ((decodeWord_ok_iff.mp hd).2.2 k m hm)).1

/-- The mode of a parameter the operation has is read from its digit (R82). -/
theorem decodeWord_digit {w : Word} {h : Header} (hd : decodeWord w = .ok h) {k : Nat} {m : Mode}
    (hm : h.modes[k]? = some m) (hk : k < h.op.arity) : m.digit = w.toNat / 10 ^ (k + 2) % 10 :=
  (paramMode_ok_iff.mp ((decodeWord_ok_iff.mp hd).2.2 k m hm)).2 hk

theorem Header.legal_iff {h : Header} :
    h.legal = true ↔ ∀ (k : Nat) (m : Mode), h.modes[k]? = some m → m.allowedFor h.op.roles[k]? = true := by
  rw [Header.forall_modes_iff, Header.legal, Bool.and_eq_true, Bool.and_eq_true, and_assoc]

theorem decodeWord_legal {w : Word} {h : Header} (hd : decodeWord w = .ok h) : h.legal = true :=
  Header.legal_iff.mpr fun _ _ => decodeWord_allowedFor hd

/-! ### Refused words -/

/-- A word that decodes to nothing is refused. -/
theorem decodeWord_refused {w : Word} (hw : ∀ h, decodeWord w ≠ .ok h) : ∃ e, decodeWord w = .error e := by
  cases hd : decodeWord w with
  | error e => exact ⟨e, rfl⟩
  | ok h => exact absurd hd (hw h)

/-- A word whose opcode field is no operation's number is refused (R90). -/
theorem decodeWord_of_unsupported {w : Word} (hw : w.toNat % 100 ∉ [1, 2, 3, 4, 5, 6, 7, 8, 9, 99]) :
    ∃ e, decodeWord w = .error e :=
  decodeWord_refused fun h hd => hw (decodeWord_number hd ▸ h.op.number_mem)

/-- A word with the digit 1 for a parameter that its operation writes is refused. -/
theorem decodeWord_of_immediateWrite {w : Word} {k : Nat}
    (hrole : ∀ op : Opcode, op.number = w.toNat % 100 → op.roles[k]? = some .write)
    (hdigit : w.toNat / 10 ^ (k + 2) % 10 = 1) : ∃ e, decodeWord w = .error e := by
  refine decodeWord_refused fun h hd => ?_
  have hr := hrole h.op (decodeWord_number hd)
  have hk : k < h.op.arity := (List.getElem?_eq_some_iff.mp hr).1
  have hlen : k < h.modes.length := hk.trans_le h.op.arity_le
  obtain ⟨m, hm⟩ : ∃ m, h.modes[k]? = some m := ⟨_, List.getElem?_eq_getElem hlen⟩
  have himmediate : some .immediate = some m := Mode.ofDigit?_eq_some_iff.mpr ((decodeWord_digit hd hm hk).trans hdigit)
  have hallowed := decodeWord_allowedFor hd hm
  rw [hr, Mode.allowedFor_some] at hallowed
  exact hallowed rfl (Option.some.inj himmediate).symm

/-! ### A list of cells decoded -/

/-- A list of cells decodes where its first cell does and the parameter cells are there; the rest is what follows
them (R80). -/
theorem decode_ok_iff {cells rest : List Word} {i : Instr} :
    decode cells = .ok (i, rest) ↔ ∃ w params h, cells = w :: params ∧ decodeWord w = .ok h ∧
      h.op.arity ≤ params.length ∧ h.instr (params.getD 0 0) (params.getD 1 0) (params.getD 2 0) = i ∧
      params.drop h.op.arity = rest := by
  cases cells with
  | nil => simp [decode]
  | cons w params =>
    cases hd : decodeWord w with
    | error e => simp [decode, hd]
    | ok h =>
      simp only [decode, hd]
      split
      · next hlt => simp [hd, Nat.not_le.mpr hlt]
      · next hle => simp [hd, Nat.not_lt.mp hle]

end Sys2Proof
end

section
/-! PROOF. Decode and encode agree; the decoder reads the decimal fields; the canonical words that decode. -/

namespace Sys2Proof

/-! ### The word of a header -/

/-- The encoding formula of R97 over the modes of all three parameters. -/
def Header.word (h : Header) : Nat :=
  h.op.number + 100 * h.m1.digit + 1000 * h.m2.digit + 10000 * h.m3.digit

/-- The opcode field takes two digits, each mode one. -/
theorem Header.fields_le (h : Header) :
    h.op.number ≤ 99 ∧ h.m1.digit ≤ 2 ∧ h.m2.digit ≤ 2 ∧ h.m3.digit ≤ 2 :=
  ⟨Laws.EncodeShape.number_le _, Laws.EncodeShape.digit_le _, Laws.EncodeShape.digit_le _, Laws.EncodeShape.digit_le _⟩

theorem Header.word_lt (h : Header) : h.word < 100000 := by
  have := h.fields_le
  unfold Header.word
  omega

theorem Header.word_mod (h : Header) : h.word % 100 = h.op.number := by
  have := h.fields_le
  unfold Header.word
  omega

theorem Header.modeField_word {h : Header} {k : Nat} {m : Mode} (hm : h.modes[k]? = some m) :
    modeField (k + 1) h.word = m.digit := by
  revert k m
  have := h.fields_le
  rw [Header.forall_modes_iff]
  simp only [modeField, decDigit, Header.word]
  omega

/-- The word of a legal header decodes to it: no field of the formula runs into another. -/
theorem decodeWord_word {h : Header} (hl : h.legal = true) : decodeWord (BitVec.ofNat 64 h.word) = .ok h := by
  have hlt := h.word_lt
  have hn : (BitVec.ofNat 64 h.word).toNat = h.word := by
    rw [BitVec.toNat_ofNat]
    omega
  have h0 : 0 ≤ (BitVec.ofNat 64 h.word).toInt := by
    rw [BitVec.toInt_eq_toNat_cond, hn]
    split <;> omega
  refine decodeWord_ok_iff.mpr ⟨h0, by rw [hn, h.word_mod], fun k m hm => ?_⟩
  rw [hn]
  exact paramMode_ok_iff.mpr ⟨Header.legal_iff.mp hl k m hm, fun _ => (Header.modeField_word hm).symm⟩

/-! ### The header of an instruction -/

/-- The mode of parameter `k + 1`, position where the instruction has no such parameter. -/
def Instr.modeAt (i : Instr) (k : Nat) : Mode :=
  (i.operands.map Operand.mode).getD k .position

/-- What the first cell of an instruction says. -/
def Instr.header (i : Instr) : Header := ⟨i.opcode, i.modeAt 0, i.modeAt 1, i.modeAt 2⟩

theorem Instr.word_header (i : Instr) : i.header.word = i.word := by
  cases i <;>
    simp [Instr.word, Instr.header, Header.word, Instr.modeAt, Instr.operands, modeDigits, Mode.digit, Nat.add_assoc]

/-- A well-formed instruction has a legal header. -/
theorem Instr.legal_header {i : Instr} (hi : i.wellFormed = true) : i.header.legal = true := by
  cases i with
  | add a b dst | mul a b dst | lessThan a b dst | equals a b dst | input dst =>
    have hd : dst.mode ≠ .immediate := Operand.writable_iff.mp hi
    simpa [Header.legal, Mode.allowedFor, Instr.header, Instr.modeAt, Instr.opcode, Opcode.roles, Instr.operands]
  | output | jumpIfTrue | jumpIfFalse | adjustRelativeBase | halt => rfl

/-- A legal header makes a well-formed instruction of any cells. -/
theorem Header.wellFormed_instr {h : Header} (hl : h.legal = true) (p1 p2 p3 : Word) :
    (h.instr p1 p2 p3).wellFormed = true := by
  obtain ⟨op, m1, m2, m3⟩ := h
  have hw := Header.legal_iff.mp hl
  cases op with
  | add | mul | lessThan | equals =>
    exact Operand.writable_iff.mpr (Mode.allowedFor_some.mp (hw 2 m3 rfl) rfl)
  | input => exact Operand.writable_iff.mpr (Mode.allowedFor_some.mp (hw 0 m1 rfl) rfl)
  | output | jumpIfTrue | jumpIfFalse | adjustRelativeBase | halt => rfl

/-- The header of an instruction and its own cells, whatever follows them, make the instruction again. -/
theorem Instr.header_instr (i : Instr) (rest : List Word) :
    i.header.instr ((i.operands.map Operand.cell ++ rest).getD 0 0) ((i.operands.map Operand.cell ++ rest).getD 1 0)
      ((i.operands.map Operand.cell ++ rest).getD 2 0) = i := by
  cases i <;> rfl

theorem Instr.arity_header (i : Instr) : i.header.op.arity = (i.operands.map Operand.cell).length := by
  cases i <;> rfl

/-! ### The obligations on decode and encode -/

/-- Settles O1: the word of the instruction's header decodes to the header, and the header with the instruction's own
cells makes the instruction again. -/
theorem decodeOfEncodeIsTheInstruction : Obligations.DecodeOfEncodeIsTheInstruction := by
  intro i rest hi
  have hd : decodeWord (BitVec.ofNat 64 i.word) = .ok i.header :=
    i.word_header ▸ decodeWord_word (Instr.legal_header hi)
  refine decode_ok_iff.mpr ⟨_, i.operands.map Operand.cell ++ rest, i.header, rfl, hd, ?_, i.header_instr rest, ?_⟩
  · rw [i.arity_header, List.length_append]
    exact Nat.le_add_right _ _
  · rw [i.arity_header, List.drop_left]

/-- Settles O2, by evaluation. -/
theorem writtenOutWordsDecode : Obligations.WrittenOutWordsDecode := by
  unfold Obligations.WrittenOutWordsDecode
  decide

/-- Settles O3: R88's check of each parameter, by whether the operation has it. -/
theorem decodeReadsTheDecimalFields : Obligations.DecodeReadsTheDecimalFields := by
  intro w h
  refine decodeWord_ok_iff.trans (and_congr_right fun _ => and_congr_right fun _ => forall₃_congr fun k m _ => ?_)
  rw [paramMode_ok_iff]
  cases hr : h.op.roles[k]? with
  | none =>
    have hk : ¬ k < h.op.arity := Nat.not_lt.mpr (List.getElem?_eq_none_iff.mp hr)
    simp [Mode.allowedFor, hk]
  | some role =>
    have hk : k < h.op.arity := (List.getElem?_eq_some_iff.mp hr).1
    simp only [Mode.allowedFor_some, hk, true_imp_iff]
    exact and_comm

/-- Settles O9: a word decodes to a legal header only. -/
theorem decodedInstructionsAreWellFormed : Obligations.DecodedInstructionsAreWellFormed := by
  intro cells rest i h
  obtain ⟨w, params, hdr, -, hd, -, rfl, -⟩ := decode_ok_iff.mp h
  exact Header.wellFormed_instr (decodeWord_legal hd) _ _ _

/-! ### The canonical words -/

/-- The legal headers, in the order in which section 4 of `30_encoding.md` lists their words. -/
def legalHeaders : List Header :=
  let ops : List Opcode :=
    [.add, .mul, .lessThan, .equals, .jumpIfTrue, .jumpIfFalse, .input, .output, .adjustRelativeBase, .halt]
  let modes : List Mode := [.position, .immediate, .relative]
  (ops.flatMap fun op => modes.flatMap fun m3 => modes.flatMap fun m2 => modes.map fun m1 => ⟨op, m1, m2, m3⟩).filter
    Header.legal

theorem mem_legalHeaders {h : Header} : h ∈ legalHeaders ↔ h.legal = true := by
  obtain ⟨op, m1, m2, m3⟩ := h
  have hop : op ∈ [Opcode.add, .mul, .lessThan, .equals, .jumpIfTrue, .jumpIfFalse, .input, .output,
      .adjustRelativeBase, .halt] := by cases op <;> decide
  have hm : ∀ m : Mode, m ∈ [Mode.position, .immediate, .relative] := by intro m; cases m <;> decide
  simp only [legalHeaders, List.mem_filter, List.mem_flatMap, List.mem_map, and_iff_right_iff_imp]
  exact fun _ => ⟨op, hop, m3, hm m3, m2, hm m2, m1, hm m1, rfl⟩

theorem canonicalWord_iff {n : Nat} {op : Opcode} (hop : op.number = n % 100) :
    canonicalWord n = true ↔ n < 10 ^ (op.arity + 2) := by
  simp only [canonicalWord, opcodeField, Opcode.ofNumber?_eq_some_iff.mpr hop, decide_eq_true_eq]

/-- A canonical word is the word of the header it decodes to: the digits that the decoder does not read are zero. -/
theorem toNat_eq_word_of_canonical {w : Word} {h : Header} (hc : canonicalWord w.toNat = true)
    (hd : decodeWord w = .ok h) : w.toNat = h.word := by
  have hop := decodeWord_number hd
  have hlt := (canonicalWord_iff hop).mp hc
  have hdigit : ∀ k m, h.modes[k]? = some m → m.digit = w.toNat / 10 ^ (k + 2) % 10 := by
    intro k m hm
    by_cases hk : k < h.op.arity
    · exact decodeWord_digit hd hm hk
    · have hk := Nat.not_lt.mp hk
      have hz : w.toNat / 10 ^ (k + 2) = 0 :=
        Nat.div_eq_of_lt (hlt.trans_le (Nat.pow_le_pow_right (by decide) (by omega)))
      have hp : m = .position := by
        simpa [Mode.allowedFor, List.getElem?_eq_none_iff.mpr hk] using decodeWord_allowedFor hd hm
      rw [hz, hp]
      rfl
  have h5 : w.toNat < 10 ^ (3 + 2) :=
    hlt.trans_le (Nat.pow_le_pow_right (by decide) (Nat.add_le_add_right h.op.arity_le 2))
  obtain ⟨h1, h2, h3⟩ := Header.forall_modes_iff.mp hdigit
  unfold Header.word
  omega

/-- The canonical words that decode are the words of the legal headers. -/
theorem canonical_and_decodes_iff {w : Word} :
    (canonicalWord w.toNat = true ∧ ∃ h, decodeWord w = .ok h) ↔ w.toNat ∈ legalHeaders.map Header.word := by
  rw [List.mem_map]
  constructor
  · rintro ⟨hc, h, hd⟩
    exact ⟨h, mem_legalHeaders.mpr (decodeWord_legal hd), (toNat_eq_word_of_canonical hc hd).symm⟩
  · rintro ⟨h, hl, hw⟩
    have hcanonical : ∀ h ∈ legalHeaders, canonicalWord h.word = true := by decide
    have hd := decodeWord_word (mem_legalHeaders.mp hl)
    rw [hw, BitVec.ofNat_toNat, BitVec.setWidth_eq] at hd
    exact ⟨hw ▸ hcanonical h hl, h, hd⟩

/-- Settles O8: the words of the legal headers, computed, are the 99 of the list. -/
theorem canonicalLegalWordsAreTheNinetyNine : Obligations.CanonicalLegalWordsAreTheNinetyNine :=
  fun _ => canonical_and_decodes_iff

end Sys2Proof
end

section
/-! PROOF. The step on a refused word, and the operands in each mode. -/

namespace Sys2Proof.Machine

/-! ### The step on a refused word -/

/-- A step on a refused word is `DecodeError` and nothing else (R112). -/
theorem step_of_refused {s : State} {w : Word} (ha : s.Active) (hw : s.memory.read s.pc = w)
    (he : ∃ e, decodeWord w = .error e) : step s = .next (s.raise .decodeError) := by
  obtain ⟨e, he⟩ := he
  obtain ⟨-, hrefused, -, -⟩ := State.fetchesFrom_of_read ha fun _ => rfl
  exact hrefused e (hw ▸ he)

/-- Settles O4: no operation has such a number. -/
theorem unsupportedOpcodeIsDecodeError : Obligations.UnsupportedOpcodeIsDecodeError := by
  refine ⟨fun w _ hw => decodeWord_of_unsupported hw, fun s ha _ hw => ?_, fun s ha hz => ?_⟩
  · exact step_of_refused ha rfl (decodeWord_of_unsupported hw)
  · exact step_of_refused ha hz (decodeWord_of_unsupported (by decide))

/-- Settles O5: the digit 1 stands for a parameter that the word's operation writes. -/
theorem immediateWriteParameterIsDecodeError : Obligations.ImmediateWriteParameterIsDecodeError := by
  have hrefused : ∀ w : Word, (w.toNat % 100 ∈ [1, 2, 7, 8] ∧ w.toNat / 10000 % 10 = 1) ∨
      (w.toNat % 100 = 3 ∧ w.toNat / 100 % 10 = 1) → ∃ e, decodeWord w = .error e := by
    rintro w (⟨hop, hdigit⟩ | ⟨hop, hdigit⟩)
    · exact decodeWord_of_immediateWrite (k := 2) (fun op e => op.roles_write.1 (e ▸ hop)) hdigit
    · exact decodeWord_of_immediateWrite (k := 0) (fun op e => op.roles_write.2 (e.trans hop)) hdigit
  refine ⟨fun w _ hw => ⟨hrefused w hw, fun s ha hs => step_of_refused ha hs (hrefused w hw)⟩, fun w hw => ?_⟩
  apply hrefused
  simp only [List.mem_cons, List.not_mem_nil, or_false] at hw
  rcases hw with rfl | rfl | rfl
  · exact .inl (by decide)
  · exact .inl (by decide)
  · exact .inr (by decide)

/-! ### Operands -/

theorem readAt_toAddr (s : State) (z : Int) :
    readAt s (toAddr z) = if LegalAddr z then .ok (s.memory.read z.toNat) else .error .memoryError := by
  unfold toAddr
  split <;> rfl

/-- Settles O24: an address resolves through `toAddr`, and a value not immediate is read there. -/
theorem operandsResolveByMode : Obligations.OperandsResolveByMode :=
  fun s _ => ⟨rfl, readAt_toAddr s _, readAt_toAddr s _, rfl, rfl⟩

end Sys2Proof.Machine
end

section
/-! PROOF. What each instruction answers: completed, with its whole next state; suspended; or `MemoryError` where an
operand address is illegal. -/

namespace Sys2Proof.Machine

/-! ### The commit an instruction ends with -/

section
variable {s : State} {x y : Word}

theorem aluStep_eq_commit {f : Word → Word → Word} {a b dst : Operand} {d : Nat} (hd : adr s dst = .ok d)
    (hx : val s a = .ok x) (hy : val s b = .ok y) :
    aluStep f a b dst s = commit s ((s.pc : Int) + 4) (s.store d (f x y)) := by
  simp only [aluStep, hd, hx, hy, orRaise_ok]

theorem jumpStep_eq_commit (taken : Bool → Bool) {a b : Operand} (hx : val s a = .ok x) (hy : val s b = .ok y) :
    jumpStep taken a b s = commit s (if taken (isZero x) then y.toInt else (s.pc : Int) + 3) s := by
  simp only [jumpStep, hx, hy, orRaise_ok]

theorem execJumpIfTrue_eq_commit {a b : Operand} (hx : val s a = .ok x) (hy : val s b = .ok y) :
    execJumpIfTrue a b s = commit s (if x.toInt ≠ 0 then y.toInt else (s.pc : Int) + 3) s := by
  rw [execJumpIfTrue, jumpStep_eq_commit _ hx hy]
  simp only [Bool.not_eq_true', ← Bool.not_eq_true, isZero_iff, ne_eq]

theorem execJumpIfFalse_eq_commit {a b : Operand} (hx : val s a = .ok x) (hy : val s b = .ok y) :
    execJumpIfFalse a b s = commit s (if x.toInt = 0 then y.toInt else (s.pc : Int) + 3) s := by
  rw [execJumpIfFalse, jumpStep_eq_commit _ hx hy]
  simp only [isZero_iff]

/-- A target that is not negative is a legal `pc`. -/
theorem commit_of_taken {p : Prop} [Decidable p] (hp : p) (ht : 0 ≤ y.toInt) :
    commit s (if p then y.toInt else (s.pc : Int) + 3) s = .next (s.advance y.toInt.toNat) := by
  rw [if_pos hp]
  exact commit_of_legal (legalAddr_word ht).1

theorem commit_of_not_taken {p : Prop} [Decidable p] (hp : ¬ p) (hn : s.pc + 3 ≤ Config.int64Max) :
    commit s (if p then y.toInt else (s.pc : Int) + 3) s = .next (s.advance (s.pc + 3)) := by
  rw [if_neg hp]
  exact commit_of_next hn

theorem execInput_eq_commit {dst : Operand} {d : Nat} {v : Word} {rest : List Word} (hd : adr s dst = .ok d)
    (hq : s.inputQueue = v :: rest) :
    execInput dst s = commit s ((s.pc : Int) + 2) ((s.setInputQueue rest).store d v) := by
  simp only [execInput, writable_of_adr hd, hq, hd, orRaise_ok, if_true]

theorem execOutput_eq_commit {a : Operand} (hx : val s a = .ok x) :
    execOutput a s = commit s ((s.pc : Int) + 2) (s.pushOutput x) := by
  simp only [execOutput, hx, orRaise_ok]

theorem execAdjustRelativeBase_eq_commit {a : Operand} (hx : val s a = .ok x) :
    execAdjustRelativeBase a s = commit s ((s.pc : Int) + 2) (s.setRb (wrap64 (s.rb.toInt + x.toInt))) := by
  simp only [execAdjustRelativeBase, hx, orRaise_ok]

end

/-- On an empty queue an input suspends before its address is looked at (`42_io.md` R160). -/
theorem execInput_of_empty {dst : Operand} {s : State} (hw : dst.writable = true) (hq : s.inputQueue = []) :
    execInput dst s = .next (s.raise .needsInput) := by
  simp only [execInput, hw, hq, if_true]

/-! ### The obligations on single instructions -/

/-- Settles O26. -/
theorem addStoresTheSum : Obligations.AddStoresTheSum :=
  fun _ _ _ _ _ _ _ hx hy hd hp => aluStep_completes hd hx hy hp

/-- Settles O27. -/
theorem mulStoresTheProduct : Obligations.MulStoresTheProduct :=
  fun _ _ _ _ _ _ _ hx hy hd hp => aluStep_completes hd hx hy hp

/-- Settles O28: the truth value stored is 1 or 0 by the signed comparison. -/
theorem lessThanStoresTheSignedComparison : Obligations.LessThanStoresTheSignedComparison := by
  intro a b dst s x y d hx hy hd hp
  rw [← lessThanBit_eq_ite]
  exact aluStep_completes hd hx hy hp

/-- Settles O29: the truth value stored is 1 or 0 by equality of the values. -/
theorem equalsStoresTheComparison : Obligations.EqualsStoresTheComparison := by
  intro a b dst s x y d hx hy hd hp
  rw [← equalsBit_eq_ite]
  exact aluStep_completes hd hx hy hp

/-- Settles O31. -/
theorem inputStoresTheFrontValue : Obligations.InputStoresTheFrontValue :=
  fun _ _ _ _ _ hq hd hp => execInput_completes hd hq hp

/-- Settles O34. -/
theorem outputAppendsTheValue : Obligations.OutputAppendsTheValue :=
  fun _ _ _ hx hp => (execOutput_eq_commit hx).trans (commit_of_next hp)

/-- Settles O35. -/
theorem jumpIfTrueGoesToTheTarget : Obligations.JumpIfTrueGoesToTheTarget :=
  fun _ _ _ _ _ hx hy =>
    ⟨fun h0 ht => (execJumpIfTrue_eq_commit hx hy).trans (commit_of_taken h0 ht),
      fun h0 hp => (execJumpIfTrue_eq_commit hx hy).trans (commit_of_not_taken (not_not.mpr h0) hp)⟩

/-- Settles O36. -/
theorem jumpIfFalseGoesToTheTarget : Obligations.JumpIfFalseGoesToTheTarget :=
  fun _ _ _ _ _ hx hy =>
    ⟨fun h0 ht => (execJumpIfFalse_eq_commit hx hy).trans (commit_of_taken h0 ht),
      fun h0 hp => (execJumpIfFalse_eq_commit hx hy).trans (commit_of_not_taken h0 hp)⟩

/-- Settles O38. -/
theorem adjustRelativeBaseAdds : Obligations.AdjustRelativeBaseAdds :=
  fun _ _ _ hx hp => (execAdjustRelativeBase_eq_commit hx).trans (commit_of_next hp)

/-! ### Resolved and unresolved operands -/

/-- A read parameter without an illegal address has a value. -/
theorem val_of_legal {s : State} {o : Operand} (h : adr s o ≠ .error .memoryError) : ∃ x, val s o = .ok x := by
  rcases val_cases s o with ⟨-, ha⟩ | ⟨hx, -⟩
  · exact absurd ha h
  · exact hx

/-- A write parameter without an illegal address has an address. -/
theorem adr_of_legal {s : State} {o : Operand} (hw : o.writable = true) (h : adr s o ≠ .error .memoryError) :
    ∃ d, adr s o = .ok d :=
  (adr_cases hw).resolve_left h

/-- What the three-parameter instructions do with legal addresses only. -/
theorem aluStep_of_resolves {f : Word → Word → Word} {a b dst : Operand} {s : State} (hw : dst.writable = true)
    (hr : ∀ o ∈ [a, b, dst], adr s o ≠ .error .memoryError) :
    ∃ u, aluStep f a b dst s = commit s ((s.pc : Int) + 4) u := by
  obtain ⟨d, hd⟩ := adr_of_legal hw (hr dst (by simp))
  obtain ⟨x, hx⟩ := val_of_legal (hr a (by simp))
  obtain ⟨y, hy⟩ := val_of_legal (hr b (by simp))
  exact ⟨_, aluStep_eq_commit hd hx hy⟩

theorem aluStep_of_unresolved {f : Word → Word → Word} {a b dst : Operand} {s : State} (hw : dst.writable = true)
    (hr : ¬ ∀ o ∈ [a, b, dst], adr s o ≠ .error .memoryError) :
    aluStep f a b dst s = .next (s.raise .memoryError) := by
  unfold aluStep
  rcases adr_cases hw with hd | ⟨d, hd⟩
  · rw [hd, orRaise_error]
  rcases val_cases s a with ⟨ha, -⟩ | ⟨⟨x, hx⟩, ha⟩
  · rw [hd, ha, orRaise_ok, orRaise_error]
  rcases val_cases s b with ⟨hb, -⟩ | ⟨-, hb⟩
  · rw [hd, hx, hb, orRaise_ok, orRaise_ok, orRaise_error]
  · exact absurd (by simp [ha, hb, hd]) hr

theorem jumpStep_of_unresolved {taken : Bool → Bool} {a b : Operand} {s : State}
    (hr : ¬ ∀ o ∈ [a, b], adr s o ≠ .error .memoryError) :
    jumpStep taken a b s = .next (s.raise .memoryError) := by
  unfold jumpStep
  rcases val_cases s a with ⟨ha, -⟩ | ⟨⟨x, hx⟩, ha⟩
  · rw [ha, orRaise_error]
  rcases val_cases s b with ⟨hb, -⟩ | ⟨-, hb⟩
  · rw [hx, hb, orRaise_ok, orRaise_error]
  · exact absurd (by simp [ha, hb]) hr

/-- An illegal address of the only operand, read. -/
theorem val_of_unresolved {s : State} {o : Operand} (hr : ¬ ∀ p ∈ [o], adr s p ≠ .error .memoryError) :
    val s o = .error .memoryError := by
  rcases val_cases s o with ⟨ho, -⟩ | ⟨-, ho⟩
  · exact ho
  · exact absurd (by simpa using ho) hr

/-- With a value in the queue and an illegal destination an input is `MemoryError`. -/
theorem execInput_of_unresolved {dst : Operand} {s : State} (hw : dst.writable = true) (hq : s.inputQueue ≠ [])
    (hr : ¬ ∀ o ∈ [dst], adr s o ≠ .error .memoryError) : execInput dst s = .next (s.raise .memoryError) := by
  obtain ⟨v, rest, hq⟩ := List.exists_cons_of_ne_nil hq
  have hd : adr s dst = .error .memoryError := by simpa using hr
  simp only [execInput, hw, hq, hd, orRaise_error, if_true]

/-! ### Every instruction -/

/-- An instruction that does not wait for input and has an illegal operand address is `MemoryError`. -/
theorem exec_of_unresolved {i : Instr} {s : State} (hw : i.wellFormed = true) (hin : s.HasInput i)
    (hr : ¬ s.Resolves i) : exec i s = .next (s.raise .memoryError) := by
  cases i with
  | add | mul | lessThan | equals => exact aluStep_of_unresolved hw hr
  | jumpIfTrue => exact jumpStep_of_unresolved hr
  | jumpIfFalse => exact jumpStep_of_unresolved (taken := id) hr
  | input dst => exact execInput_of_unresolved hw (hin dst rfl) hr
  | output a => simp only [exec, execOutput, val_of_unresolved hr, orRaise_error]
  | adjustRelativeBase a => simp only [exec, execAdjustRelativeBase, val_of_unresolved hr, orRaise_error]
  | halt => exact absurd nofun hr

/-- An instruction whose operands resolve and that does not wait for input ends by committing the `pc` it goes to. -/
theorem exec_of_goesTo {i : Instr} {s : State} {z : Int} (hw : i.wellFormed = true) (hin : s.HasInput i)
    (hr : s.Resolves i) (hz : s.GoesTo i z) : ∃ u, exec i s = commit s z u := by
  cases i with
  | add | mul | lessThan | equals => exact hz ▸ aluStep_of_resolves hw hr
  | jumpIfTrue a b =>
    obtain ⟨x, y, hx, hy, rfl⟩ := hz
    exact ⟨s, execJumpIfTrue_eq_commit hx hy⟩
  | jumpIfFalse a b =>
    obtain ⟨x, y, hx, hy, rfl⟩ := hz
    exact ⟨s, execJumpIfFalse_eq_commit hx hy⟩
  | input dst =>
    obtain ⟨v, rest, hq⟩ := List.exists_cons_of_ne_nil (hin dst rfl)
    obtain ⟨d, hd⟩ := adr_of_legal hw (hr dst (by simp [Instr.operands]))
    exact hz ▸ ⟨_, execInput_eq_commit hd hq⟩
  | output a =>
    obtain ⟨x, hx⟩ := val_of_legal (hr a (by simp [Instr.operands]))
    exact hz ▸ ⟨_, execOutput_eq_commit hx⟩
  | adjustRelativeBase a =>
    obtain ⟨x, hx⟩ := val_of_legal (hr a (by simp [Instr.operands]))
    exact hz ▸ ⟨_, execAdjustRelativeBase_eq_commit hx⟩
  | halt => exact hz.elim

/-- An instruction whose operands resolve goes somewhere, unless it is a halt. -/
theorem State.Resolves.goesTo {s : State} {i : Instr} (hr : s.Resolves i) (hi : i ≠ .halt) : ∃ z, s.GoesTo i z := by
  cases i with
  | jumpIfTrue a b | jumpIfFalse a b =>
    obtain ⟨x, hx⟩ := val_of_legal (hr a (by simp [Instr.operands]))
    obtain ⟨y, hy⟩ := val_of_legal (hr b (by simp [Instr.operands]))
    exact ⟨_, x, y, hx, hy, rfl⟩
  | halt => exact absurd rfl hi
  | add | mul | lessThan | equals | input | output | adjustRelativeBase => exact ⟨_, rfl⟩

end Sys2Proof.Machine
end

section
/-! PROOF. The step: what it fetches and runs, when it ends in each of the six statuses, and that it does not matter
whether it starts from Running or from NeedsInput (`10_state.md` R27; `40_engine.md` R111 to R122). -/

namespace Sys2Proof.Machine

/-! ### What is fetched -/

theorem arity_instr (h : Header) (p1 p2 p3 : Word) : (h.instr p1 p2 p3).arity = h.op.arity := by
  obtain ⟨op, m1, m2, m3⟩ := h
  cases op <;> rfl

/-- A fetched instruction was decoded, so its write parameter is not immediate. -/
theorem fetchInstr_wellFormed {s : State} {i : Instr} (hf : fetchInstr s = .instr i) : i.wellFormed = true := by
  rcases fetchInstr_cases s with ⟨-, h⟩ | ⟨-, ⟨_, -, h⟩ | ⟨_, -, -, h⟩ | ⟨_, hw, -, h⟩⟩ <;> cases hf.symm.trans h
  exact Header.wellFormed_instr (decodeWord_legal hw) _ _ _

/-- The fetch looks only at whether the status is terminal. -/
theorem fetchInstr_setStatus {s : State} {st : Status} (ha : s.Active) (hst : st.terminal = false) :
    fetchInstr { s with status := st } = fetchInstr s := by
  simp only [fetchInstr, hst, ha]

theorem active_of_running_or_needsInput {s : State} (h : s.status = .running ∨ s.status = .needsInput) : s.Active := by
  rcases h with h | h <;> rw [State.Active, h] <;> rfl

theorem perform_step {s t : State} (h : step s = .next t) (fresh : Bool) :
    State.perform .step fresh s = .next (t, .status t.status) := by
  simp only [State.perform, h]

/-- Settles O10: the header that the word at `pc` decodes to is legal, and its instruction is the one fetched. -/
theorem stepRunsTheDecodedInstruction : Obligations.StepRunsTheDecodedInstruction := by
  intro s i rest ha hd hp
  obtain ⟨w, params, h, hcells, hw, -, rfl, -⟩ := decode_ok_iff.mp hd
  obtain ⟨rfl, rfl⟩ := List.cons.inj hcells
  rw [arity_instr] at hp
  obtain ⟨-, -, -, hexec⟩ := State.fetchesFrom_of_read ha fun _ => rfl
  exact ⟨Header.wellFormed_instr (decodeWord_legal hw) _ _ _, (hexec h hw hp).2⟩

/-- Settles O11. -/
theorem terminalStepChangesNothing : Obligations.TerminalStepChangesNothing := by
  intro s hs
  have ht : s.status.terminal = true := by rcases hs with h | h | h | h <;> rw [h] <;> rfl
  exact ⟨if_pos ht, step_of_terminal ht, perform_step (step_of_terminal ht)⟩

/-! ### When a step ends in each status -/

/-- The condition under which a step from an active state ends in a status (`10_state.md` R27, `60_exceptions.md`
section 3). -/
def State.EndsIn (s : State) : Status → Prop
  | .running => ∃ i z, fetchInstr s = .instr i ∧ s.HasInput i ∧ s.Resolves i ∧ s.GoesTo i z ∧ LegalAddr z
  | .halted => fetchInstr s = .instr .halt
  | .needsInput => (∃ dst, fetchInstr s = .instr (.input dst)) ∧ s.inputQueue = []
  | .decodeError => ∃ e, decodeWord (s.memory.read s.pc) = .error e
  | .memoryError => ∃ i, fetchInstr s = .instr i ∧ s.HasInput i ∧ ¬ s.Resolves i
  | .invalidPC =>
    (∃ h, decodeWord (s.memory.read s.pc) = .ok h ∧ Config.int64Max < s.pc + h.op.arity) ∨
    ∃ i z, fetchInstr s = .instr i ∧ s.HasInput i ∧ s.Resolves i ∧ s.GoesTo i z ∧ ¬ LegalAddr z

/-- The conditions cover every active state: the fetch raises, or the instruction is a halt, or waits for input, or has
an illegal address, or goes to a `pc` in range or not. -/
theorem State.Active.endsIn {s : State} (ha : s.Active) : ∃ st, s.EndsIn st := by
  rcases fetchInstr_cases s with ⟨ht, -⟩ | ⟨-, ⟨e, he, -⟩ | ⟨h, hd, hp, -⟩ | ⟨h, -, -, hf⟩⟩
  · exact absurd (ha.symm.trans ht) nofun
  · exact ⟨.decodeError, e, he⟩
  · exact ⟨.invalidPC, .inl ⟨h, hd, hp⟩⟩
  generalize h.instr _ _ _ = i at hf
  by_cases hi : i = .halt
  · subst hi
    exact ⟨.halted, hf⟩
  by_cases hin : s.HasInput i
  · by_cases hr : s.Resolves i
    · obtain ⟨z, hz⟩ := hr.goesTo hi
      by_cases hl : LegalAddr z
      · exact ⟨.running, i, z, hf, hin, hr, hz, hl⟩
      · exact ⟨.invalidPC, .inr ⟨i, z, hf, hin, hr, hz, hl⟩⟩
    · exact ⟨.memoryError, i, hf, hin, hr⟩
  · simp only [State.HasInput, not_forall, not_not] at hin
    obtain ⟨dst, rfl, hq⟩ := hin
    exact ⟨.needsInput, ⟨dst, hf⟩, hq⟩

/-- Each condition makes the step end in its status. -/
theorem step_of_endsIn {s : State} {st : Status} (ha : s.Active) (h : s.EndsIn st) :
    ∃ t, step s = .next t ∧ t.status = st := by
  cases st with
  | running =>
    obtain ⟨i, z, hf, hin, hr, hz, hl⟩ := h
    obtain ⟨u, he⟩ := exec_of_goesTo (fetchInstr_wellFormed hf) hin hr hz
    exact ⟨_, (step_of_instr hf).trans (he.trans (commit_of_legal hl)), rfl⟩
  | halted => exact ⟨s.halt, step_of_instr h, rfl⟩
  | needsInput =>
    obtain ⟨⟨dst, hf⟩, hq⟩ := h
    exact ⟨_, (step_of_instr hf).trans (execInput_of_empty (fetchInstr_wellFormed hf) hq), rfl⟩
  | decodeError => exact ⟨_, step_of_refused ha rfl h, rfl⟩
  | memoryError =>
    obtain ⟨i, hf, hin, hr⟩ := h
    exact ⟨_, (step_of_instr hf).trans (exec_of_unresolved (fetchInstr_wellFormed hf) hin hr), rfl⟩
  | invalidPC =>
    rcases h with ⟨h, hd, hp⟩ | ⟨i, z, hf, hin, hr, hz, hl⟩
    · obtain ⟨-, -, hbeyond, -⟩ := State.fetchesFrom_of_read ha fun _ => rfl
      exact ⟨_, hbeyond h hd hp, rfl⟩
    · obtain ⟨u, he⟩ := exec_of_goesTo (fetchInstr_wellFormed hf) hin hr hz
      exact ⟨_, (step_of_instr hf).trans (he.trans (commit_of_not_legal hl)), rfl⟩

theorem step_status_of_endsIn {s t : State} {st : Status} (ha : s.Active) (hs : step s = .next t) (h : s.EndsIn st) :
    t.status = st := by
  obtain ⟨u, hu, rfl⟩ := step_of_endsIn ha h
  cases hs.symm.trans hu
  rfl

/-- Some condition holds and the step ends in its status, so the one for the status it ends in holds. -/
theorem step_status_iff {s t : State} (ha : s.Active) (hs : step s = .next t) (st : Status) :
    t.status = st ↔ s.EndsIn st := by
  refine ⟨?_, step_status_of_endsIn ha hs⟩
  rintro rfl
  obtain ⟨st, h⟩ := ha.endsIn
  exact step_status_of_endsIn ha hs h ▸ h

/-- Settles O19: the six conditions cover every active state, and each makes the step end in its status. -/
theorem statusTransitionsOfAStep : Obligations.StatusTransitionsOfAStep :=
  fun _ _ ha hs => ⟨step_status_iff ha hs .running, step_status_iff ha hs .halted, step_status_iff ha hs .needsInput,
    step_status_iff ha hs .decodeError, step_status_iff ha hs .memoryError, step_status_iff ha hs .invalidPC⟩

/-! ### Running and NeedsInput -/

/-- No instruction looks at the status, and each of its ends, a raised condition, the commit and the halt, writes it. -/
theorem exec_setStatus (i : Instr) (s : State) (st : Status) : exec i { s with status := st } = exec i s := by
  cases i <;> rfl

theorem State.Active.fetchInstr_ne_stopped {s : State} (ha : s.Active) : fetchInstr s ≠ .stopped := by
  rcases fetchInstr_cases s with ⟨ht, -⟩ | ⟨-, ⟨_, -, h⟩ | ⟨_, -, -, h⟩ | ⟨_, -, -, h⟩⟩
  · exact absurd (ha.symm.trans ht) nofun
  all_goals exact h ▸ nofun

/-- A step takes the active statuses alike. -/
theorem step_setStatus {s : State} {st : Status} (ha : s.Active) (hst : st.terminal = false) :
    step { s with status := st } = step s := by
  have hf := fetchInstr_setStatus ha hst
  cases h : fetchInstr s with
  | stopped => exact absurd h ha.fetchInstr_ne_stopped
  | raised c => exact (step_of_raised (hf.trans h)).trans (step_of_raised h).symm
  | instr i => rw [step_of_instr h, step_of_instr (hf.trans h), exec_setStatus]

/-- Settles O12: a cell never written reads 0, which is refused. -/
theorem fetchDecodesTheWordAtPc : Obligations.FetchDecodesTheWordAtPc := by
  refine ⟨fun s e hs he => ?_, fun s hs hm => ?_, fun s => ?_, fun s hs => legalAddr_natCast.mpr hs.2⟩
  · exact step_of_refused (active_of_running_or_needsInput hs) rfl ⟨e, he⟩
  · exact step_of_refused (active_of_running_or_needsInput hs) (Memory.read_eq_zero hm)
      (decodeWord_of_unsupported (by decide))
  · exact step_setStatus (s := { s with status := .running }) rfl rfl

/-- An input on an empty queue suspends the machine. -/
theorem step_of_suspended {s : State} {dst : Operand} (hf : fetchInstr s = .instr (.input dst))
    (hq : s.inputQueue = []) : step s = .next { s with status := .needsInput } :=
  (step_of_instr hf).trans (execInput_of_empty (fetchInstr_wellFormed hf) hq)

/-- Settles O20: the fetch does not look at the input queue, so the suspended machine fetches the same input until a
value is there. -/
theorem suspendedInputIsRetried : Obligations.SuspendedInputIsRetried := by
  intro s dst ha hf hq
  have hsuspended : fetchInstr { s with status := .needsInput } = .instr (.input dst) :=
    (fetchInstr_setStatus ha rfl).trans hf
  have hretry (v : Word) : fetchInstr (State.addInput { s with status := .needsInput } v) = .instr (.input dst) :=
    hsuspended
  refine ⟨step_of_suspended hf hq, step_of_suspended hsuspended hq, fun v => ⟨step_of_instr (hretry v), ?_⟩⟩
  intro d hd hp
  have hqueue : (State.addInput { s with status := .needsInput } v).inputQueue = v :: s.inputQueue := by simp [hq]
  exact (step_of_instr (hretry v)).trans (execInput_completes hd hqueue hp)

/-- Settles O21: the two states differ in the status only, Running in one and NeedsInput in the other. -/
theorem suspensionIsExact : Obligations.SuspensionIsExact := by
  intro s u dst v hs hq hf hu
  cases hu.symm.trans (step_of_suspended hf hq)
  exact step_setStatus (s := s.addInput v) (active_of_running_or_needsInput (.inl hs)) rfl

end Sys2Proof.Machine
end

section
/-! PROOF. A step that does not leave Running has changed only the status (`92_eei_decisions.md` D9). -/

namespace Sys2Proof.Machine

/-- An instruction that completes leaves the machine running (`40_engine.md` R120). -/
theorem State.Completes.status_eq {s t : State} {i : Instr} (h : s.Completes i t) : t.status = .running := by
  obtain ⟨z, u, -, -, -, rfl⟩ := h
  exact State.advance_status u z.toNat

/-- Settles O18: a step changes only the status or completes its instruction, and one that completes leaves Running. -/
theorem raisedConditionsChangeOnlyTheStatus : Obligations.RaisedConditionsChangeOnlyTheStatus := by
  intro s t h hne
  rcases step_ends h with hstatus | ⟨i, -, hc⟩
  · exact hstatus
  · exact absurd hc.status_eq hne

end Sys2Proof.Machine
end

section
/-! PROOF. `run` is repeated step (`40_engine.md` R123), and the two queue commands of the host (`45_host_commands.md`
R215, R218). -/

namespace Sys2Proof.Machine

/-! ### run -/

theorem State.run_succ_of_running {s t : State} (fuel : Nat) (h : step s = .next t) (hr : t.status = .running) :
    State.run (fuel + 1) s = State.run fuel t := by
  simp only [State.run, h, if_pos hr]

theorem State.run_succ_of_stopped {s t : State} (fuel : Nat) (h : step s = .next t) (hr : t.status ≠ .running) :
    State.run (fuel + 1) s = some t := by
  simp only [State.run, h, if_neg hr]

theorem perform_run_of_some {fuel : Nat} {s t : State} (h : State.run fuel s = some t) (fresh : Bool) :
    State.perform (.run fuel) fresh s = .next (t, .status t.status) := by
  simp only [State.perform, h]

theorem perform_run_of_none {fuel : Nat} {s : State} (h : State.run fuel s = none) (fresh : Bool) :
    State.perform (.run fuel) fresh s = .refused .runUnfinished := by
  simp only [State.perform, h]

/-- Each of the first `k - 1` steps leaves Running, so a `run` has not returned before its `k`-th step. -/
def State.RunsBefore (s : State) (k : Nat) : Prop :=
  ∀ j, 1 ≤ j → j < k → ∃ u : State, Sys2Proof.core.run j s = .next u ∧ u.status = .running

theorem State.runsBefore_one (s : State) : s.RunsBefore 1 :=
  fun _ h1 h => absurd h (Nat.not_lt.mpr h1)

theorem State.runsBefore_add_two {s : State} {k : Nat} :
    s.RunsBefore (k + 2) ↔ ∃ t, step s = .next t ∧ t.status = .running ∧ t.RunsBefore (k + 1) := by
  constructor
  · intro h
    obtain ⟨u, hu, hr⟩ := h 1 (by omega) (by omega)
    obtain ⟨t, ht, hut⟩ := core_run_next hu
    cases hut
    refine ⟨u, ht, hr, fun j _ hj => ?_⟩
    rw [← core_run_succ j ht]
    exact h (j + 1) (by omega) (by omega)
  · rintro ⟨t, ht, hr, hrest⟩ j hj1 hj
    obtain ⟨i, rfl⟩ := Nat.exists_eq_add_of_le' hj1
    rw [core_run_succ i ht]
    cases i with
    | zero => exact ⟨t, core_run_zero t, hr⟩
    | succ i => exact hrest (i + 1) (by omega) (by omega)

/-- A `run` that returns does so at the first step that leaves a status other than Running. -/
theorem State.run_some_first {fuel : Nat} {s u : State} (h : State.run fuel s = some u) :
    u.status ≠ .running ∧ ∃ k, k + 1 ≤ fuel ∧ Sys2Proof.core.run (k + 1) s = .next u ∧ s.RunsBefore (k + 1) := by
  induction fuel generalizing s with
  | zero => cases h
  | succ fuel ih =>
    obtain ⟨t, ht, ⟨hr, hrun⟩ | ⟨hr, rfl⟩⟩ := State.run_some h
    · obtain ⟨hu, k, hk, hku, hbefore⟩ := ih hrun
      exact ⟨hu, k + 1, by omega, (core_run_succ (k + 1) ht).trans hku,
        State.runsBefore_add_two.mpr ⟨t, ht, hr, hbefore⟩⟩
    · exact ⟨hr, 0, by omega, core_run_succ 0 ht, s.runsBefore_one⟩

/-- A `run` followed as far as the first step that leaves a status other than Running returns what that step left. -/
theorem State.run_eq_some {k fuel : Nat} {s u : State} (hk : k + 1 ≤ fuel)
    (hrun : Sys2Proof.core.run (k + 1) s = .next u) (hu : u.status ≠ .running) (hbefore : s.RunsBefore (k + 1)) :
    State.run fuel s = some u := by
  obtain ⟨fuel, rfl⟩ := Nat.exists_eq_add_of_le' (Nat.le_of_add_left_le hk)
  induction k generalizing s fuel with
  | zero =>
    obtain ⟨t, ht, htu⟩ := core_run_next hrun
    cases htu
    exact State.run_succ_of_stopped fuel ht hu
  | succ k ih =>
    obtain ⟨t, ht, hr, hrest⟩ := State.runsBefore_add_two.mp hbefore
    obtain ⟨fuel, rfl⟩ := Nat.exists_eq_add_of_le' (show 1 ≤ fuel by omega)
    rw [State.run_succ_of_running _ ht hr]
    exact ih ((core_run_succ (k + 1) ht).symm.trans hrun) hrest fuel (by omega)

theorem State.run_eq_none {fuel : Nat} {s : State} (h : s.RunsBefore (fuel + 1)) : State.run fuel s = none := by
  induction fuel generalizing s with
  | zero => rfl
  | succ fuel ih =>
    obtain ⟨t, ht, hr, hrest⟩ := State.runsBefore_add_two.mp h
    exact (State.run_succ_of_running fuel ht hr).trans (ih hrest)

/-- Settles O22: each clause by induction on the number of steps, the first step taken off. -/
theorem runIsRepeatedStep : Obligations.RunIsRepeatedStep := by
  refine ⟨fun n s t h => ?_, fun k n s t fresh hk hkn hrun ht hbefore => ?_, fun n s fresh h => ?_⟩
  · obtain ⟨ht, k, hk, hrun, hbefore⟩ := State.run_some_first h
    exact ⟨ht, k + 1, Nat.le_add_left 1 k, hk, hrun, hbefore⟩
  · obtain ⟨k, rfl⟩ := Nat.exists_eq_add_of_le' hk
    have hsome := State.run_eq_some hkn hrun ht hbefore
    exact ⟨hsome, perform_run_of_some hsome fresh⟩
  · exact perform_run_of_none (State.run_eq_none fun j hj1 hj => h j hj1 (Nat.lt_succ_iff.mp hj)) fresh

/-! ### add_input and pop_output -/

theorem State.foldl_addInput (vs : List Word) (s : State) :
    vs.foldl State.addInput s = { s with inputQueue := s.inputQueue ++ vs } := by
  induction vs generalizing s with
  | nil => rw [List.append_nil, List.foldl_nil]
  | cons v vs ih =>
    rw [List.foldl_cons, ih, State.addInput_inputQueue, List.append_assoc]
    rfl

/-- Settles O45: several values by induction on their list. -/
theorem addInputAppends : Obligations.AddInputAppends := by
  refine ⟨fun _ _ _ => rfl, fun vs s => ?_⟩
  rw [State.foldl_addInput]
  exact ⟨rfl, rfl⟩

/-- Settles O46: the front and the rest of the queue, which for an empty one are `None` and the empty queue. -/
theorem popOutputTakesTheFront : Obligations.PopOutputTakesTheFront := by
  refine ⟨fun v rest fresh s h => ?_, fun fresh s h => ?_⟩
  · rw [perform_popOutput, h, List.tail_cons, List.head?_cons]
  · have hs : { s with outputQueue := s.outputQueue.tail } = s := by rw [h, List.tail_nil, ← h]
    rw [perform_popOutput, hs, h, List.head?_nil]

end Sys2Proof.Machine
end

section
/-! PROOF. A command on one instance is invisible to every other, and equal instances stay equal under equal commands
(`46_snapshot_clone.md` R251). -/

namespace Sys2Proof.Machine

/-! ### What `clone`, `dump` and `destroy` do when they answer -/

theorem World.command_clone_next {w v : World} {g : Nat} {r : Reply} (hc : w.command (.clone g) = .next (v, r)) :
    ∃ vm, w.find g = some vm ∧ r = .handle w.nextHandle ∧
      v = (w.put g ⟨vm.state, false⟩).add ⟨vm.state, false⟩ := by
  simp only [World.command] at hc
  split at hc
  · cases hc
  · next vm hf =>
    cases hc
    exact ⟨vm, hf, rfl, rfl⟩

theorem World.command_dump_next {w v : World} {g : Nat} {r : Reply} (hc : w.command (.dump g) = .next (v, r)) :
    ∃ vm, w.find g = some vm ∧ r = .text (Config.dumpText w.draws) ∧
      v = { w.put g ⟨vm.state, false⟩ with draws := w.draws + 1 } := by
  simp only [World.command] at hc
  split at hc
  · cases hc
  · next vm hf =>
    cases hc
    exact ⟨vm, hf, rfl, rfl⟩

theorem World.command_destroy_next {w v : World} {g : Nat} {r : Reply} (hc : w.command (.destroy g) = .next (v, r)) :
    ∃ vm, w.find g = some vm ∧ r = .none ∧ v = w.remove g := by
  simp only [World.command] at hc
  split at hc
  · cases hc
  · next vm hf =>
    cases hc
    exact ⟨vm, hf, rfl, rfl⟩

/-! ### Looking up a handle the table was changed at, or not -/

theorem World.find_put_of_ne (w : World) {g h : Nat} (hgh : g ≠ h) (vm : Vm) : (w.put g vm).find h = w.find h := by
  rw [World.find_put, if_neg hgh]

theorem World.find_put_self {w : World} {h : Nat} {old : Vm} (hf : w.find h = some old) (vm : Vm) :
    (w.put h vm).find h = some vm := by
  rw [World.find_put, if_pos rfl, hf, Option.map_some]

theorem World.find_add_of_live {w : World} {h : Nat} {vm : Vm} (hf : w.find h = some vm) (new : Vm) :
    (w.add new).find h = some vm := by
  rw [World.find_add, hf, Option.some_or]

theorem World.find_remove_of_ne (w : World) {g h : Nat} (hgh : g ≠ h) : (w.remove g).find h = w.find h := by
  rw [World.find_remove, if_neg hgh]

/-! ### Noninterference -/

/-- The command changes the table at its own handle and at a new one only. -/
theorem World.command_keeps_others {w v : World} {c : Command} {r : Reply} {h : Nat} {vm : Vm}
    (hc : w.command c = .next (v, r)) (hf : w.find h = some vm) (hon : ∀ vc, c ≠ .on h vc) (hclone : c ≠ .clone h)
    (hdump : c ≠ .dump h) (hdestroy : c ≠ .destroy h) : v.find h = some vm := by
  cases c with
  | create =>
    cases hc
    exact World.find_add_of_live hf _
  | on g vc =>
    have hgh : g ≠ h := fun e => hon vc (e ▸ rfl)
    obtain ⟨_, t, -, -, rfl⟩ := World.command_on_next hc
    rw [World.find_put_of_ne w hgh, hf]
  | clone g =>
    have hgh : g ≠ h := fun e => hclone (e ▸ rfl)
    obtain ⟨src, -, -, rfl⟩ := World.command_clone_next hc
    exact World.find_add_of_live ((World.find_put_of_ne w hgh _).trans hf) _
  | dump g =>
    have hgh : g ≠ h := fun e => hdump (e ▸ rfl)
    obtain ⟨src, -, -, rfl⟩ := World.command_dump_next hc
    exact (World.find_put_of_ne w hgh _).trans hf
  | destroy g =>
    have hgh : g ≠ h := fun e => hdestroy (e ▸ rfl)
    obtain ⟨_, -, -, rfl⟩ := World.command_destroy_next hc
    rw [World.find_remove_of_ne w hgh, hf]

/-- A command's response and the instance it leaves depend on nothing but the instance it is on. -/
theorem World.command_on_of_find {w v : World} {h : Nat} {vm : Vm} {c : VmCommand} {r : Reply}
    (hf : w.find h = some vm) (hc : w.command (.on h c) = .next (v, r)) :
    ∃ t, State.perform c vm.fresh vm.state = .next (t, r) ∧ v.find h = some ⟨t, false⟩ := by
  obtain ⟨vm', t, hf', hp, rfl⟩ := World.command_on_next hc
  obtain rfl : vm' = vm := Option.some.inj (hf'.symm.trans hf)
  exact ⟨t, hp, World.find_put_self hf _⟩

/-- The same command at two handles that hold one instance: the first is invisible at the second handle, and so is the
second at the first, so both are `perform` on that instance. -/
theorem World.same_command_keeps_equal {w v u : World} {c : VmCommand} {r q : Reply} {g h : Nat} {vm : Vm} (hgh : g ≠ h)
    (hg : w.find g = some vm) (hh : w.find h = some vm) (hc : w.command (.on g c) = .next (v, r))
    (hd : v.command (.on h c) = .next (u, q)) : r = q ∧ u.find g = u.find h := by
  obtain ⟨t, hpg, hvg⟩ := World.command_on_of_find hg hc
  have hvh : v.find h = some vm := World.command_keeps_others hc hh (by simp [hgh]) nofun nofun nofun
  obtain ⟨t', hph, huh⟩ := World.command_on_of_find hvh hd
  have hug : u.find g = some ⟨t, false⟩ := World.command_keeps_others hd hvg (by simp [hgh.symm]) nofun nofun nofun
  cases hpg.symm.trans hph
  exact ⟨rfl, hug.trans huh.symm⟩

/-- Settles O55: another instance by the command, equal instances by `perform` on the one they both are. -/
theorem commandsOnOneInstanceAreInvisibleToOthers : Obligations.CommandsOnOneInstanceAreInvisibleToOthers :=
  ⟨fun _ _ _ _ _ _ hc hf hon hclone hdump hdestroy =>
    World.command_keeps_others hc hf hon hclone hdump hdestroy,
   fun _ _ _ _ _ _ _ _ _ hgh hg hh hc hd => World.same_command_keeps_equal hgh hg hh hc hd⟩

end Sys2Proof.Machine
end

section
/-! PROOF. An input that finds no value suspends the machine, whatever its destination (`92_eei_decisions.md` D10). -/

namespace Sys2Proof.Machine

/-- Settles O32: the queue is looked at before the destination's address, so no case on whether that is legal. -/
theorem inputOnAnEmptyQueueSuspends : Obligations.InputOnAnEmptyQueueSuspends :=
  fun _ _ hw hq => execInput_of_empty hw hq

end Sys2Proof.Machine
end

section
/-! PROOF. Which digits the decoder looks at: negative words and digits that name no mode are refused, digits it does not
read decide nothing (`30_encoding.md` R83, R91, R93). -/

namespace Sys2Proof

theorem decodeWord_of_neg {w : Word} (h : w.toInt < 0) : decodeWord w = .error .negativeWord :=
  if_pos h

theorem Opcode.number_inj {op op' : Opcode} (h : op.number = op'.number) : op = op' :=
  Option.some.inj ((Opcode.ofNumber?_eq_some_iff.mpr h).symm.trans (Opcode.ofNumber?_eq_some_iff.mpr rfl))

/-- In a word that decodes, the digit of every parameter the operation has is that of a mode. -/
theorem decodeWord_digit_le {w : Word} {h : Header} (hd : decodeWord w = .ok h) {k : Nat} (hk : k < h.op.arity) :
    w.toNat / 10 ^ (k + 2) % 10 ≤ 2 := by
  have hlen : k < h.modes.length := hk.trans_le h.op.arity_le
  rw [← decodeWord_digit hd (List.getElem?_eq_getElem hlen) hk]
  exact Laws.EncodeShape.digit_le _

/-- Settles O6: a word that decodes has the digit of a mode for each parameter of its operation. -/
theorem negativeWordsAndOtherDigitsAreRefused : Obligations.NegativeWordsAndOtherDigitsAreRefused := by
  refine ⟨fun _ => decodeWord_of_neg, fun w op k _ hop hk hdigit => decodeWord_refused fun h hd => ?_⟩
  obtain rfl : op = h.op := Opcode.number_inj (hop.trans (decodeWord_number hd).symm)
  exact absurd (decodeWord_digit_le hd hk) (Nat.not_le.mpr hdigit)

/-- R88's check of a parameter depends on the roles of the operation and, where it has the parameter, on the digit. -/
theorem paramMode_congr {op op' : Opcode} {k w v : Nat} (hroles : op.roles = op'.roles)
    (hdigit : k < op.arity → w / 10 ^ (k + 2) % 10 = v / 10 ^ (k + 2) % 10) :
    paramMode op (k + 1) w = paramMode op' (k + 1) v := by
  unfold paramMode
  rw [← hroles, Nat.add_sub_cancel]
  cases hr : op.roles[k]? with
  | none => rfl
  | some role =>
    have hfield : modeField (k + 1) w = modeField (k + 1) v := hdigit (List.getElem?_eq_some_iff.mp hr).1
    rw [hfield]

/-- Settles O7: the three checks of the parameters answer alike, and the refusals name the same digits. -/
theorem ignoredDigitsAreNotExamined : Obligations.IgnoredDigitsAreNotExamined := by
  intro w v op hw hv hopw hopv hdigit
  have hopw : Opcode.ofNumber? (opcodeField w.toNat) = some op := Opcode.ofNumber?_eq_some_iff.mpr hopw
  have hopv : Opcode.ofNumber? (opcodeField v.toNat) = some op := Opcode.ofNumber?_eq_some_iff.mpr hopv
  have h1 : paramMode op 1 w.toNat = paramMode op 1 v.toNat := paramMode_congr rfl (hdigit 0)
  have h2 : paramMode op 2 w.toNat = paramMode op 2 v.toNat := paramMode_congr rfl (hdigit 1)
  have h3 : paramMode op 3 w.toNat = paramMode op 3 v.toNat := paramMode_congr rfl (hdigit 2)
  simp only [decodeWord, if_neg (Int.not_lt.mpr hw), if_neg (Int.not_lt.mpr hv), hopw, hopv, h1, h2, h3]

end Sys2Proof
end

section
/-! PROOF. Every step answers; wraparound; and the two faults of an instruction: an illegal operand address and a new
`pc` out of range (`60_exceptions.md` R262, R264). -/

namespace Sys2Proof.Machine

/-! ### Every step answers -/

theorem aluStep_answers (f : Word → Word → Word) (a b dst : Operand) (s : State) :
    ∃ t, aluStep f a b dst s = .next t :=
  orRaise_answers fun _ => orRaise_answers fun _ => orRaise_answers fun _ => commit_answers _ _ _

theorem jumpStep_answers (taken : Bool → Bool) (a b : Operand) (s : State) : ∃ t, jumpStep taken a b s = .next t :=
  orRaise_answers fun _ => orRaise_answers fun _ => commit_answers _ _ _

theorem execInput_answers (dst : Operand) (s : State) : ∃ t, execInput dst s = .next t := by
  unfold execInput
  split
  · split
    · exact ⟨_, rfl⟩
    · exact orRaise_answers fun _ => commit_answers _ _ _
  · exact ⟨_, rfl⟩

theorem exec_answers (i : Instr) (s : State) : ∃ t, exec i s = .next t := by
  cases i with
  | add | mul | lessThan | equals => exact aluStep_answers _ _ _ _ s
  | jumpIfTrue => exact jumpStep_answers _ _ _ s
  | jumpIfFalse => exact jumpStep_answers id _ _ s
  | input dst => exact execInput_answers dst s
  | output | adjustRelativeBase => exact orRaise_answers fun _ => commit_answers _ _ _
  | halt => exact ⟨_, rfl⟩

/-- Settles O14: by what is fetched, and an instruction by its meaning. -/
theorem stepAlwaysAnswers : Obligations.StepAlwaysAnswers := by
  intro s
  cases hf : fetchInstr s with
  | stopped => exact ⟨s, step_of_stopped hf⟩
  | raised c => exact ⟨s.raise c, step_of_raised hf⟩
  | instr i => exact step_of_instr hf ▸ exec_answers i s

/-- Settles O13: the fetch finds the parameter cells outside the address space. -/
theorem parameterCellsBeyondTheEndAreInvalidPC : Obligations.ParameterCellsBeyondTheEndAreInvalidPC := by
  intro s h ha hd hp
  obtain ⟨-, -, hbeyond, -⟩ := State.fetchesFrom_of_read ha fun _ => rfl
  exact hbeyond h hd hp

/-! ### Wraparound -/

/-- Settles O25: the balanced remainder of `BitVec.ofInt` is the formula of `00_scope.md` R8. -/
theorem wrapIsTwosComplement : Obligations.WrapIsTwosComplement := by
  refine fun z => ⟨?_, toInt_wrap64⟩
  rw [wrap64, BitVec.toInt_ofInt, Int.bmod_def]
  split <;> omega

/-! ### Illegal addresses -/

/-- A position or relative operand outside the address space is `MemoryError` (R115, R116). -/
theorem adr_of_not_legal {s : State} {o : Operand}
    (h : (o.mode = .position ∧ ¬ LegalAddr o.cell.toInt) ∨
      (o.mode = .relative ∧ ¬ LegalAddr (s.rb.toInt + o.cell.toInt))) : adr s o = .error .memoryError := by
  rcases h with ⟨hm, hl⟩ | ⟨hm, hl⟩ <;> rw [adr, hm] <;> exact toAddr_error_iff.mpr ⟨hl, rfl⟩

/-- Settles O40: such an operand keeps the instruction's operands from resolving. -/
theorem illegalOperandAddressIsMemoryError : Obligations.IllegalOperandAddressIsMemoryError :=
  fun _ o _ hw ho hill hin => exec_of_unresolved hw hin fun hr => hr o ho (adr_of_not_legal hill)

/-! ### A new `pc` out of range -/

/-- An operand that is immediate or has an address has no illegal address. -/
theorem adr_ne_memoryError {s : State} {o : Operand} (h : o.mode = .immediate ∨ ∃ d, adr s o = .ok d) :
    adr s o ≠ .error .memoryError := by
  rcases h with hm | ⟨d, hd⟩
  · rw [adr, hm]
    nofun
  · rw [hd]
    nofun

/-- An instruction that goes somewhere and is no taken jump goes to the next instruction. -/
theorem State.GoesTo.eq_next {s : State} {i : Instr} {z : Int} (hz : s.GoesTo i z)
    (htrue : ∀ a b x, i = .jumpIfTrue a b → val s a = .ok x → x.toInt = 0)
    (hfalse : ∀ a b x, i = .jumpIfFalse a b → val s a = .ok x → x.toInt ≠ 0) : z = s.pc + 1 + i.arity := by
  rcases hz.next_or_jump with h | ⟨a, b, rfl | rfl⟩
  · exact h
  · obtain ⟨x, y, hx, -, rfl⟩ := hz
    rw [if_neg (not_not.mpr (htrue a b x rfl hx)), add_assoc]
    rfl
  · obtain ⟨x, y, hx, -, rfl⟩ := hz
    rw [if_neg (hfalse a b x rfl hx), add_assoc]
    rfl

/-- A taken jump to a negative target. -/
theorem commit_of_taken_neg {s : State} {y : Word} {p : Prop} [Decidable p] (hp : p) (hy : y.toInt < 0) :
    commit s (if p then y.toInt else (s.pc : Int) + 3) s = .next (s.raise .invalidPC) := by
  rw [if_pos hp]
  exact commit_of_not_legal fun hl => Int.not_le.mpr hy hl.1

/-- Settles O41: the instruction ends by committing the `pc` it goes to, which is not in range. -/
theorem newPcOutOfRangeIsInvalidPC : Obligations.NewPcOutOfRangeIsInvalidPC := by
  refine ⟨fun i s hw hi hops hin htrue hfalse hp => ?_, fun a b s x y hx hy hneg => ⟨fun h0 => ?_, fun h0 => ?_⟩⟩
  · have hr : s.Resolves i := fun o ho => adr_ne_memoryError (hops o ho)
    obtain ⟨z, hz⟩ := hr.goesTo hi
    obtain ⟨u, he⟩ := exec_of_goesTo hw hin hr hz
    have hnext : z = s.pc + 1 + i.arity := hz.eq_next htrue hfalse
    exact he.trans (commit_of_not_legal fun hl => by have := hl.2; omega)
  · exact (execJumpIfTrue_eq_commit hx hy).trans (commit_of_taken_neg h0 hneg)
  · exact (execJumpIfFalse_eq_commit hx hy).trans (commit_of_taken_neg h0 hneg)

end Sys2Proof.Machine
end

section
/-! PROOF. Inverting a jump word (`45_host_commands.md` R227). -/

namespace Sys2Proof.Machine

/-! ### The inverted word -/

/-- `w` is a word of jump-if-true and `v` the next word, the same jump with the condition inverted. -/
def JumpPair (w v : Word) : Prop := 0 ≤ w.toInt ∧ w.toNat % 100 = 5 ∧ v.toInt = w.toInt + 1

/-- The next word is a cell: the largest cell ends in 07. -/
theorem jumpPair_succ {w : Word} (h0 : 0 ≤ w.toInt) (h : w.toNat % 100 = 5) : JumpPair w (wrap64 (w.toInt + 1)) := by
  obtain ⟨⟨-, hmax⟩, hn⟩ := legalAddr_word h0
  refine ⟨h0, h, toInt_wrap64 ?_ ?_⟩ <;> simp only [Config.int64Min, Config.int64Max] at hmax ⊢ <;> omega

theorem jumpPair_pred {v : Word} (h0 : 0 ≤ v.toInt) (h : v.toNat % 100 = 6) : JumpPair (wrap64 (v.toInt - 1)) v := by
  obtain ⟨⟨-, hmax⟩, hn⟩ := legalAddr_word h0
  have hw : (wrap64 (v.toInt - 1)).toInt = v.toInt - 1 := by
    apply toInt_wrap64 <;> simp only [Config.int64Min, Config.int64Max] at hmax ⊢ <;> omega
  have hw0 : 0 ≤ (wrap64 (v.toInt - 1)).toInt := by omega
  have hwn := (legalAddr_word hw0).2
  exact ⟨hw0, by omega, by omega⟩

/-- The two words differ in the opcode field only. -/
theorem JumpPair.fields {w v : Word} (h : JumpPair w v) :
    0 ≤ v.toInt ∧ v.toNat % 100 = 6 ∧ w.toNat / 100 = v.toNat / 100 := by
  obtain ⟨h0, h5, hv⟩ := h
  have hv0 : 0 ≤ v.toInt := by omega
  have hwn := (legalAddr_word h0).2
  have hvn := (legalAddr_word hv0).2
  exact ⟨hv0, by omega, by omega⟩

/-- Each of the two words is the other inverted. -/
theorem JumpPair.inverts {w v : Word} (h : JumpPair w v) : invertJump w = some v ∧ invertJump v = some w := by
  obtain ⟨hv0, h6, -⟩ := h.fields
  obtain ⟨h0, h5, hv⟩ := h
  constructor
  · rw [invertJump, if_neg (Int.not_lt.mpr h0), opcodeField, if_pos h5, ← hv, wrap64_toInt]
  · rw [invertJump, if_neg (Int.not_lt.mpr hv0), opcodeField, if_neg (by omega), if_pos h6, hv,
      Int.add_sub_cancel, wrap64_toInt]

theorem invertJump_of_not_jump {w : Word} (h : w.toInt < 0 ∨ (w.toNat % 100 ≠ 5 ∧ w.toNat % 100 ≠ 6)) :
    invertJump w = none := by
  unfold invertJump opcodeField
  rcases h with h | ⟨h5, h6⟩
  · rw [if_pos h]
  · rw [if_neg h5, if_neg h6, ite_self]

/-- A word with the digits of a decoded one and the opcode of an operation with the same parameters decodes to that
operation with the same modes. -/
theorem decodeWord_of_same_digits {w v : Word} {h : Header} {op : Opcode} (hd : decodeWord w = .ok h)
    (hv : 0 ≤ v.toInt) (hop : op.number = v.toNat % 100) (hroles : h.op.roles = op.roles)
    (hdigits : w.toNat / 100 = v.toNat / 100) : decodeWord v = .ok { h with op := op } := by
  obtain ⟨-, -, hmodes⟩ := decodeWord_ok_iff.mp hd
  refine decodeWord_ok_iff.mpr ⟨hv, hop, fun k m hm => ?_⟩
  rw [← hmodes k m hm]
  refine (paramMode_congr hroles fun _ => ?_).symm
  rw [Nat.pow_add', ← Nat.div_div_eq_div_mul, ← Nat.div_div_eq_div_mul]
  exact congrArg (· / 10 ^ k % 10) hdigits

/-- A decoded jump-if-true, inverted, is jump-if-false, and inverted again it is itself. -/
theorem invertJump_jumpIfTrue {w : Word} {h : Header} (hd : decodeWord w = .ok h) (hop : h.op = .jumpIfTrue) :
    ∃ v, invertJump w = some v ∧ decodeWord v = .ok { h with op := .jumpIfFalse } ∧ invertJump v = some w := by
  obtain ⟨h0, hnum, -⟩ := decodeWord_ok_iff.mp hd
  have hpair := jumpPair_succ h0 (hnum.symm.trans (congrArg Opcode.number hop))
  obtain ⟨hv0, h6, hdigits⟩ := hpair.fields
  obtain ⟨hinvert, hback⟩ := hpair.inverts
  exact ⟨_, hinvert, decodeWord_of_same_digits hd hv0 h6.symm (hop ▸ rfl) hdigits, hback⟩

theorem invertJump_jumpIfFalse {w : Word} {h : Header} (hd : decodeWord w = .ok h) (hop : h.op = .jumpIfFalse) :
    ∃ v, invertJump w = some v ∧ decodeWord v = .ok { h with op := .jumpIfTrue } ∧ invertJump v = some w := by
  obtain ⟨h0, hnum, -⟩ := decodeWord_ok_iff.mp hd
  have hpair := jumpPair_pred h0 (hnum.symm.trans (congrArg Opcode.number hop))
  obtain ⟨-, -, hdigits⟩ := hpair.fields
  obtain ⟨hback, hinvert⟩ := hpair.inverts
  obtain ⟨hv0, h5, -⟩ := hpair
  exact ⟨_, hinvert, decodeWord_of_same_digits hd hv0 h5.symm (hop ▸ rfl) hdigits.symm, hback⟩

/-! ### The command -/

theorem perform_patchInstructionAt_of_neg {a : Word} (h : a.toInt < 0) (fresh : Bool) (s : State) :
    State.perform (.patchInstructionAt a) fresh s = .next (s, .memoryError) := by
  simp only [State.perform, toAddr_of_neg h]

theorem perform_patchInstructionAt_of_not_jump {a : Word} (h : 0 ≤ a.toInt) (fresh : Bool) {s : State}
    (hw : invertJump (s.memory.read a.toNat) = none) :
    State.perform (.patchInstructionAt a) fresh s = .refused .patchNotJump := by
  simp only [State.perform, toAddr_word_of_nonneg h, hw]

/-- Settles O49: the two opcodes are neighbours and differ in no parameter, so the inverted word keeps all other
digits. -/
theorem patchInvertsTheJump : Obligations.PatchInvertsTheJump :=
  ⟨fun _ _ hd => ⟨invertJump_jumpIfTrue hd, invertJump_jumpIfFalse hd⟩,
    fun fresh _ _ _ ha hw => perform_patchInstructionAt_of_jump ha fresh hw,
    fun fresh s _ ha => perform_patchInstructionAt_of_neg ha fresh s,
    fun fresh _ _ ha hw => perform_patchInstructionAt_of_not_jump ha fresh (invertJump_of_not_jump hw)⟩

end Sys2Proof.Machine
end

section
/-! PROOF. The state after reset, and which of its components each host command reads or writes (`10_state.md` R35,
R36). -/

namespace Sys2Proof.Machine

/-! ### Reset -/

/-- Settles O16. -/
theorem resetValues : Obligations.ResetValues :=
  ⟨Memory.read_nil, rfl, rfl, rfl, rfl, rfl⟩

/-- Settles O17. -/
theorem resetMeetsTheInvariant : Obligations.ResetMeetsTheInvariant :=
  ⟨State.reset_memory_wf, Nat.zero_le _⟩

/-! ### load -/

/-- Cells below the first address written are as before, those from it on hold the values, and those beyond the last
are as before. -/
theorem Memory.read_writeFrom (m : Memory) (a b : Nat) (vs : List Word) :
    (Memory.writeFrom m a vs).read b = if b < a then m.read b else vs.getD (b - a) (m.read b) := by
  induction vs generalizing m a with
  | nil =>
    rw [List.getD_nil, ite_self]
    rfl
  | cons v vs ih =>
    rw [Memory.writeFrom, ih, Memory.read_write]
    rcases Nat.lt_trichotomy b a with hlt | rfl | hgt
    · rw [if_pos (Nat.lt_succ_of_lt hlt), if_pos hlt, if_neg (Nat.ne_of_gt hlt)]
    · rw [if_pos (Nat.lt_succ_self b), if_pos rfl, if_neg (Nat.lt_irrefl b), Nat.sub_self, List.getD_cons_zero]
    · obtain ⟨k, rfl⟩ := Nat.exists_eq_add_of_lt hgt
      rw [if_neg (by omega), if_neg (by omega), if_neg (by omega), show a + k + 1 - (a + 1) = k by omega,
        show a + k + 1 - a = k + 1 by omega, List.getD_cons_succ]

theorem perform_load_of_fresh {tape : List Word} (h : tape.length ≤ Config.int64Max + 1) (s : State) :
    State.perform (.load tape) true s = .next (s.load tape, .none) := by
  simp only [State.perform, if_true, if_pos h]

/-- Settles O51. -/
theorem loadPlacesTheTape : Obligations.LoadPlacesTheTape :=
  fun tape s => ⟨fun h => ⟨_, perform_load_of_fresh h s, fun a => Memory.read_writeFrom [] 0 a tape⟩, rfl⟩

/-! ### Observing commands -/

theorem perform_memRead_of_neg {a : Word} (h : a.toInt < 0) (fresh : Bool) (s : State) :
    State.perform (.memRead a) fresh s = .next (s, .memoryError) := by
  simp only [State.perform, State.memRead, toAddr_of_neg h, readAt]

/-- Settles O47. -/
theorem observingCommandsChangeNothing : Obligations.ObservingCommandsChangeNothing := by
  refine fun fresh s a => ⟨rfl, rfl, ?_⟩
  split
  · next h => exact perform_memRead_of_nonneg h fresh s
  · next h => exact perform_memRead_of_neg (Int.not_le.mp h) fresh s

/-! ### The columns of the access table -/

/-- The commands that may write memory (`10_state.md` R35). -/
def VmCommand.WritesMemory (c : VmCommand) : Prop :=
  (∃ tape, c = .load tape) ∨ (∃ a v, c = .memWrite a v) ∨ ∃ a, c = .patchInstructionAt a

/-- What a command other than `step` and `run` can do: nothing to the state, or change one component, which is one of
its own columns. -/
theorem perform_cases {c : VmCommand} {fresh : Bool} {s t : State} {r : Reply}
    (h : State.perform c fresh s = .next (t, r)) (hstep : c ≠ .step) (hrun : ∀ n, c ≠ .run n) :
    t = s ∨ ((∃ v, c = .addInput v) ∧ ∃ q, t = { s with inputQueue := q }) ∨
    (c = .popOutput ∧ ∃ q, t = { s with outputQueue := q }) ∨
    (c.WritesMemory ∧ ∃ m, t = { s with memory := m }) := by
  cases c with
  | step => exact absurd rfl hstep
  | run n => exact absurd rfl (hrun n)
  | pendingInput | pendingOutput =>
    cases h
    exact .inl rfl
  | addInput v =>
    cases h
    exact .inr (.inl ⟨⟨v, rfl⟩, _, rfl⟩)
  | popOutput =>
    rw [perform_popOutput] at h
    cases h
    exact .inr (.inr (.inl ⟨rfl, _, rfl⟩))
  | memRead a =>
    simp only [State.perform] at h
    split at h <;> cases h <;> exact .inl rfl
  | load tape =>
    simp only [State.perform] at h
    split at h
    · split at h
      · cases h
        exact .inr (.inr (.inr ⟨.inl ⟨tape, rfl⟩, _, rfl⟩))
      · cases h
    · cases h
  | memWrite a v =>
    rcases Int.lt_or_le a.toInt 0 with ha | ha
    · rw [perform_memWrite_of_neg ha] at h
      cases h
      exact .inl rfl
    · rw [perform_memWrite_of_nonneg ha] at h
      cases h
      exact .inr (.inr (.inr ⟨.inr (.inl ⟨a, v, rfl⟩), _, rfl⟩))
  | patchInstructionAt a =>
    rcases Int.lt_or_le a.toInt 0 with ha | ha
    · rw [perform_patchInstructionAt_of_neg ha] at h
      cases h
      exact .inl rfl
    · cases hw : invertJump (s.memory.read a.toNat) with
      | none =>
        rw [perform_patchInstructionAt_of_not_jump ha fresh hw] at h
        cases h
      | some w =>
        rw [perform_patchInstructionAt_of_jump ha fresh hw] at h
        cases h
        exact .inr (.inr (.inr ⟨.inr (.inr ⟨a, rfl⟩), _, rfl⟩))

/-- Settles O53: the command changes one component at most, and a component is changed by its own commands. -/
theorem commandsWriteOnlyTheirColumns : Obligations.CommandsWriteOnlyTheirColumns := by
  intro c fresh s t r h hstep hrun
  rcases perform_cases h hstep hrun with rfl | ⟨⟨v, rfl⟩, q, rfl⟩ | ⟨rfl, q, rfl⟩ | ⟨hc, m, rfl⟩
  · exact ⟨rfl, rfl, rfl, fun _ => rfl, fun _ => rfl, fun _ _ _ => rfl⟩
  · exact ⟨rfl, rfl, rfl, fun hne => absurd rfl (hne v), fun _ => rfl, fun _ _ _ => rfl⟩
  · exact ⟨rfl, rfl, rfl, fun _ => rfl, fun hne => absurd rfl hne, fun _ _ _ => rfl⟩
  · refine ⟨rfl, rfl, rfl, fun _ => rfl, fun _ => rfl, fun hload hwrite hpatch => ?_⟩
    rcases hc with ⟨tape, rfl⟩ | ⟨a, v, rfl⟩ | ⟨a, rfl⟩
    · exact absurd rfl (hload tape)
    · exact absurd rfl (hwrite a v)
    · exact absurd rfl (hpatch a)

end Sys2Proof.Machine
end

section
/-! PROOF. The commands on the table of instances: `create`, `clone`, `dump` and `destroy` (`45_host_commands.md` R210,
R228, R229; `46_snapshot_clone.md`). -/

namespace Sys2Proof.Machine

/-! ### What they answer -/

section
variable {w : World} {h : Nat}

theorem World.command_clone {vm : Vm} (hf : w.find h = some vm) :
    w.command (.clone h) =
      .next ((w.put h ⟨vm.state, false⟩).add ⟨vm.state, false⟩, .handle w.nextHandle) := by
  simp only [World.command, hf]

theorem World.command_dump {vm : Vm} (hf : w.find h = some vm) :
    w.command (.dump h) =
      .next ({ w.put h ⟨vm.state, false⟩ with draws := w.draws + 1 }, .text (Config.dumpText w.draws)) := by
  simp only [World.command, hf]

theorem World.command_destroy {vm : Vm} (hf : w.find h = some vm) :
    w.command (.destroy h) = .next (w.remove h, .none) := by
  simp only [World.command, hf]

/-- Every command on a handle that is not live is refused (R229). -/
theorem World.command_of_dead (hf : w.find h = none) :
    (∀ c, w.command (.on h c) = .refused .noSuchInstance) ∧ w.command (.clone h) = .refused .noSuchInstance ∧
    w.command (.dump h) = .refused .noSuchInstance ∧ w.command (.destroy h) = .refused .noSuchInstance := by
  simp only [World.command, hf, implies_true, and_self]

/-! ### The table afterwards -/

theorem World.find_add_of_ne (hne : h ≠ w.nextHandle) (vm : Vm) : (w.add vm).find h = w.find h := by
  rw [World.find_add, if_neg hne.symm, Option.or_none]

theorem World.find_add_new (hf : w.find w.nextHandle = none) (vm : Vm) :
    (w.add vm).find w.nextHandle = some vm := by
  rw [World.find_add, hf, if_pos rfl, Option.none_or]

theorem World.find_remove_self (w : World) (h : Nat) : (w.remove h).find h = none := by
  rw [World.find_remove, if_pos rfl]

/-- A replacement under a handle makes no other live. -/
theorem World.find_put_of_dead (hf : w.find h = none) (g : Nat) (vm : Vm) : (w.put g vm).find h = none := by
  rw [World.find_put, hf, Option.map_none, ite_self]

theorem World.find_remove_of_dead (hf : w.find h = none) (g : Nat) : (w.remove g).find h = none := by
  rw [World.find_remove, hf, ite_self]

/-- An instance replaced by one with the same state: every handle that was live is, and has the state it had. -/
theorem World.find_put_sameState {vm : Vm} (hf : w.find h = some vm) (fresh : Bool) (g : Nat) :
    ((w.put h ⟨vm.state, fresh⟩).find g).map Vm.state = (w.find g).map Vm.state := by
  by_cases hg : h = g
  · subst hg
    rw [World.find_put_self hf, hf, Option.map_some, Option.map_some]
  · rw [World.find_put_of_ne w hg]

end

/-! ### The obligations on the table -/

/-- Settles O54: the source is put back with its own state, and the copy added under a new handle. -/
theorem cloneCopiesTheWholeState : Obligations.CloneCopiesTheWholeState := by
  intro w h vm hw hf
  have hnew : w.find w.nextHandle = none := World.find_of_nextHandle_le hw (Nat.le_refl _)
  have hne : h ≠ w.nextHandle := by
    rintro rfl
    exact nomatch hf.symm.trans hnew
  have hothers (g : Nat) (hg : g ≠ w.nextHandle) :
      (((w.put h ⟨vm.state, false⟩).add ⟨vm.state, false⟩).find g).map Vm.state = (w.find g).map Vm.state := by
    rw [World.find_add_of_ne (w := w.put h _) hg, World.find_put_sameState hf false]
  refine ⟨hnew, _, World.command_clone hf, ?_, ?_, hothers⟩
  · exact congrArg _ (World.find_add_new (w := w.put h _) (World.find_put_of_dead hnew h _) _)
  · rw [hothers h hne, hf, Option.map_some]

/-- A handle once given and not live: the table is changed by `put`, `add` and `remove` only, and none of them makes it
live. -/
theorem World.command_keeps_dead {w v : World} {c : Command} {r : Reply} {h : Nat} (hlt : h < w.nextHandle)
    (hf : w.find h = none) (hc : w.command c = .next (v, r)) : h < v.nextHandle ∧ v.find h = none := by
  have hne : h ≠ w.nextHandle := Nat.ne_of_lt hlt
  cases c with
  | create =>
    cases hc
    exact ⟨Nat.lt_succ_of_lt hlt, (World.find_add_of_ne hne _).trans hf⟩
  | on g c =>
    obtain ⟨_, t, -, -, rfl⟩ := World.command_on_next hc
    exact ⟨hlt, World.find_put_of_dead hf g _⟩
  | clone g =>
    obtain ⟨src, -, -, rfl⟩ := World.command_clone_next hc
    exact ⟨Nat.lt_succ_of_lt hlt, (World.find_add_of_ne (w := w.put g _) hne _).trans (World.find_put_of_dead hf g _)⟩
  | dump g =>
    obtain ⟨src, -, -, rfl⟩ := World.command_dump_next hc
    exact ⟨hlt, World.find_put_of_dead hf g _⟩
  | destroy g =>
    obtain ⟨_, -, -, rfl⟩ := World.command_destroy_next hc
    exact ⟨hlt, World.find_remove_of_dead hf g⟩

/-- Settles O57. -/
theorem destroyedHandlesAreRefused : Obligations.DestroyedHandlesAreRefused :=
  ⟨fun w h _ hf => ⟨_, World.command_destroy hf, World.find_remove_self w h,
      fun _ hg => World.find_remove_of_ne w hg.symm⟩,
    fun _ _ => World.command_of_dead, fun _ _ _ _ _ => World.command_keeps_dead⟩

/-- Settles O59. -/
theorem createMakesANewResetInstance : Obligations.CreateMakesANewResetInstance := by
  intro w hw
  have hnew : w.find w.nextHandle = none := World.find_of_nextHandle_le hw (Nat.le_refl _)
  exact ⟨hnew, _, rfl, World.find_add_new hnew _, fun _ hh => World.find_add_of_ne hh _⟩

/-- Settles O60: the instance is put back with its own state. -/
theorem dumpChangesNoState : Obligations.DumpChangesNoState :=
  fun _ _ _ hf => ⟨_, World.command_dump hf, World.find_put_sameState hf false⟩

end Sys2Proof.Machine
end

section
/-! PROOF. A text is read as a tape exactly where it fits the format of `30_encoding.md` R98: blanks at the ends of the
whole text are blanks of its first and last item, and each item is read by itself. -/

namespace Sys2Proof.Machine

/-! ### One item -/

theorem isBlank_comma : isBlank ',' = false := by decide

/-- A signed number neither begins nor ends with a blank. -/
theorem trimBlanks_signed {left sign ds right : List Char} (hl : ∀ c ∈ left, isBlank c = true)
    (hr : ∀ c ∈ right, isBlank c = true) (hne : ds ≠ []) (hds : ∀ c ∈ ds, '0' ≤ c ∧ c ≤ '9')
    (hs : sign = [] ∨ sign = ['+'] ∨ sign = ['-']) : trimBlanks (left ++ (sign ++ ds) ++ right) = sign ++ ds := by
  obtain ⟨d, ds', rfl⟩ := List.exists_cons_of_ne_nil hne
  refine trimBlanks_of hl hr (by simp) (fun c hc => ?_) (fun c hc => ?_)
  · rcases hs with rfl | rfl | rfl <;> cases hc
    · exact isBlank_of_digit (hds d (by simp))
    · decide
    · decide
  · rw [List.getLast?_append_of_ne_nil _ (by simp)] at hc
    exact isBlank_of_digit (hds c (List.mem_of_getLast? hc))

theorem parseItem_of_parseInt {item : List Char} {w : Word} (h : parseInt (trimBlanks item) = some w.toInt) :
    parseItem item = some w := by
  have hmin := BitVec.le_toInt w
  have hmax := BitVec.toInt_lt (x := w)
  rw [parseItem, h]
  simp only [wrap64_toInt]
  exact if_pos ⟨by simpa using hmin, by simpa using Int.le_of_lt_add_one hmax⟩

/-- An item that is read is a signed number in `Int64`. -/
theorem parseInt_of_parseItem {item : List Char} {w : Word} (h : parseItem item = some w) :
    parseInt (trimBlanks item) = some w.toInt := by
  unfold parseItem at h
  split at h
  · cases h
  · next z hz =>
    split at h
    · next hrange =>
      cases h
      rw [hz, toInt_wrap64 hrange.1 hrange.2]
    · cases h

/-- An item is read as a cell exactly where it denotes it. -/
theorem parseItem_eq_some_iff {item : List Char} {w : Word} : parseItem item = some w ↔ ItemDenotes item w := by
  constructor
  · intro h
    obtain ⟨left, right, hitem, hl, hr⟩ := trimBlanks_split item
    obtain ⟨sign, ds, htrim, hne, hds, hvalue⟩ := parseInt_eq_some.mp (parseInt_of_parseItem h)
    refine ⟨left, sign, ds, right, ?_, hl, hr, hne, hds, hvalue⟩
    rw [List.append_assoc left, ← htrim]
    exact hitem
  · rintro ⟨left, sign, ds, right, rfl, hl, hr, hne, hds, hvalue⟩
    have hsign : sign = [] ∨ sign = ['+'] ∨ sign = ['-'] := by tauto
    refine parseItem_of_parseInt ?_
    rw [List.append_assoc left, trimBlanks_signed hl hr hne hds hsign]
    exact parseInt_eq_some.mpr ⟨sign, ds, rfl, hne, hds, hvalue⟩

theorem comma_notMem_of_blanks {cs : List Char} (h : ∀ c ∈ cs, isBlank c = true) : ',' ∉ cs :=
  fun hc => absurd (h _ hc) (by rw [isBlank_comma]; nofun)

/-- No item of the format holds a comma. -/
theorem ItemDenotes.comma_notMem {item : List Char} {w : Word} (h : ItemDenotes item w) : ',' ∉ item := by
  obtain ⟨left, sign, ds, right, rfl, hl, hr, -, hds, hvalue⟩ := h
  have hsign : ',' ∉ sign := by
    rcases hvalue with ⟨rfl, -⟩ | ⟨rfl | rfl, -⟩ <;> decide
  have hdigits : ',' ∉ ds := fun hc => absurd (hds _ hc) (by decide)
  simp only [List.mem_append, not_or]
  exact ⟨⟨⟨comma_notMem_of_blanks hl, hsign⟩, hdigits⟩, comma_notMem_of_blanks hr⟩

/-! ### Trimming the whole text -/

theorem trimBlanks_blanks_append {l : List Char} (hl : ∀ c ∈ l, isBlank c = true) (cs : List Char) :
    trimBlanks (l ++ cs) = trimBlanks cs := by
  rw [trimBlanks, dropWhile_blanks hl, trimBlanks]

theorem trimBlanks_append_blanks {r : List Char} (hr : ∀ c ∈ r, isBlank c = true) (cs : List Char) :
    trimBlanks (cs ++ r) = trimBlanks cs := by
  unfold trimBlanks
  rw [List.dropWhile_append]
  split
  · next hblank => rw [List.isEmpty_iff.mp hblank, List.dropWhile_eq_nil_iff.mpr hr]
  · rw [List.reverse_append, dropWhile_blanks (by simpa using hr)]

theorem splitCommas_comma_cons (cs : List Char) : splitCommas (',' :: cs) = [] :: splitCommas cs := by
  obtain ⟨item, items, h⟩ := List.exists_cons_of_ne_nil (splitCommas_ne_nil cs)
  simp only [splitCommas, h, if_true]

theorem splitCommas_cons_of_ne {c : Char} {cs item : List Char} {items : List (List Char)} (hc : c ≠ ',')
    (h : splitCommas cs = item :: items) : splitCommas (c :: cs) = (c :: item) :: items := by
  simp only [splitCommas, h, if_neg hc]

/-- Text without commas put in front belongs to the first item. -/
theorem splitCommas_append_left {l : List Char} (hl : ',' ∉ l) (cs : List Char) :
    ∃ item items, splitCommas cs = item :: items ∧ splitCommas (l ++ cs) = (l ++ item) :: items := by
  obtain ⟨item, items, h⟩ := List.exists_cons_of_ne_nil (splitCommas_ne_nil cs)
  refine ⟨item, items, h, ?_⟩
  induction l with
  | nil => exact h
  | cons c l ih =>
    obtain ⟨hc, hl⟩ := not_or.mp (mt List.mem_cons.mpr hl)
    exact splitCommas_cons_of_ne (Ne.symm hc) (ih hl)

/-- Text without commas put behind belongs to the last item. -/
theorem splitCommas_append_right {r : List Char} (hr : ',' ∉ r) (cs : List Char) :
    ∃ items last, splitCommas cs = items ++ [last] ∧ splitCommas (cs ++ r) = items ++ [last ++ r] := by
  induction cs with
  | nil =>
    obtain ⟨item, items, hnil, h⟩ := splitCommas_append_left hr []
    cases hnil
    exact ⟨[], [], rfl, by simpa using h⟩
  | cons c cs ih =>
    obtain ⟨items, last, h, happend⟩ := ih
    by_cases hc : c = ','
    · subst hc
      exact ⟨[] :: items, last, by rw [splitCommas_comma_cons, h, List.cons_append],
        by rw [List.cons_append, splitCommas_comma_cons, happend, List.cons_append]⟩
    · cases items with
      | nil => exact ⟨[], c :: last, splitCommas_cons_of_ne hc h, splitCommas_cons_of_ne hc happend⟩
      | cons item items =>
        exact ⟨(c :: item) :: items, last, splitCommas_cons_of_ne hc h, splitCommas_cons_of_ne hc happend⟩

theorem parseItem_congr {i j : List Char} (h : trimBlanks i = trimBlanks j) : parseItem i = parseItem j := by
  rw [parseItem, h, parseItem]

/-- Items are read trimmed. -/
theorem parseItems_congr {is js : List (List Char)} (h : is.map trimBlanks = js.map trimBlanks) :
    parseItems is = parseItems js := by
  induction is generalizing js with
  | nil => rw [List.map_eq_nil_iff.mp h.symm]
  | cons i is ih =>
    obtain ⟨j, js, rfl, hj, hjs⟩ := List.map_eq_cons_iff.mp h.symm
    rw [parseItems, parseItems, parseItem_congr hj.symm, ih hjs.symm]

/-- Trimming the whole text decides nothing: its blanks are trimmed with its first and last item. -/
theorem parseTape_eq_parseItems (text : List Char) : parseTape text = parseItems (splitCommas text) := by
  obtain ⟨l, r, htext, hl, hr⟩ := trimBlanks_split text
  obtain ⟨item, items, hcs, hleft⟩ := splitCommas_append_left (comma_notMem_of_blanks hl) (trimBlanks text)
  obtain ⟨init, last, hlcs, hright⟩ := splitCommas_append_right (comma_notMem_of_blanks hr) (l ++ trimBlanks text)
  apply parseItems_congr
  calc (splitCommas (trimBlanks text)).map trimBlanks
      = (splitCommas (l ++ trimBlanks text)).map trimBlanks := by
        rw [hcs, hleft, List.map_cons, List.map_cons, trimBlanks_blanks_append hl]
    _ = (splitCommas (l ++ trimBlanks text ++ r)).map trimBlanks := by
        rw [hlcs, hright, List.map_append, List.map_append, List.map_singleton, List.map_singleton,
          trimBlanks_append_blanks hr]
    _ = (splitCommas text).map trimBlanks := by rw [← htext]

/-! ### The whole text -/

theorem comma_notMem_of_denotes {items : List (List Char)} {tape : List Word}
    (h : List.Forall₂ ItemDenotes items tape) : ∀ item ∈ items, ',' ∉ item :=
  ((List.forall₂_and_left items tape).mp (h.imp fun _ _ hd => ⟨hd.comma_notMem, hd⟩)).1

theorem parseTape_eq_some_iff {text : List Char} {tape : List Word} :
    parseTape text = some tape ↔ ∃ items : List (List Char), items ≠ [] ∧ text = List.intercalate [','] items ∧
      List.Forall₂ ItemDenotes items tape := by
  simp only [parseTape_eq_parseItems, parseItems_eq_some, parseItem_eq_some_iff]
  constructor
  · exact fun h => ⟨_, splitCommas_ne_nil text, (intercalate_splitCommas text).symm, h⟩
  · rintro ⟨items, hne, rfl, h⟩
    rwa [splitCommas_intercalate hne (comma_notMem_of_denotes h)]

/-! ### Rendered tapes -/

theorem itemDenotes_renderItem (w : Word) : ItemDenotes (renderItem w) w := by
  obtain ⟨hne, hdigits, hvalue⟩ := toDigits_denotes w.toInt.natAbs
  refine ⟨[], if w.toInt < 0 then ['-'] else [], _, [], ?_, nofun, nofun, hne, hdigits, ?_⟩
  · rw [List.append_nil, List.nil_append]
    rfl
  · rw [hvalue]
    split
    · exact .inl ⟨rfl, by omega⟩
    · exact .inr ⟨.inl rfl, by omega⟩

theorem renderTape_eq_intercalate : ∀ tape : List Word,
    renderTape tape = List.intercalate [','] (tape.map renderItem)
  | [] => rfl
  | [w] => by simp [renderTape]
  | w :: v :: ws => by
    rw [renderTape, renderTape_eq_intercalate (v :: ws)]
    · simp [List.intercalate_cons_cons]
    · nofun

theorem parseTape_renderTape {tape : List Word} (hne : tape ≠ []) : parseTape (renderTape tape) = some tape := by
  refine parseTape_eq_some_iff.mpr ⟨tape.map renderItem, by simpa using hne, renderTape_eq_intercalate tape, ?_⟩
  rw [List.forall₂_map_left_iff, List.forall₂_same]
  exact fun w _ => itemDenotes_renderItem w

/-- Settles O58: the texts written out by evaluation. -/
theorem programTextIsReadAsATape : Obligations.ProgramTextIsReadAsATape := by
  refine ⟨fun _ _ => parseTape_eq_some_iff, fun _ => parseTape_renderTape, ?_⟩
  decide

end Sys2Proof.Machine
end
